-- ==== Sys2Proof/Word.lean ====
section
/-! DEFINITION. The plainest types of the block: the command word, the width parameter of an instance, the
signedness of a command, and register numbers. -/

namespace Sys2Proof

/-- A command word `cw[15:0]` (30_encoding.md R50, R53): a 16-bit parallel bus, bit 0 least significant. -/
abbrev CmdWord := BitVec 16

/-- The number of a scalar register, `s0` to `s3` (10_state.md R20). -/
abbrev SReg := Fin 4

/-- The logical width `N` of an instance (00_scope.md R5): an integer with `4 <= N <= 64`, fixed when the instance
is built. A number outside the range is no instance of this hardware, so it is no value of this type. -/
structure Width where
  bits : Nat
  four_le : 4 ≤ bits
  le_sixtyfour : bits ≤ 64
deriving DecidableEq, Repr

/-- The signedness `sg` of a command, or the view under which a register is read (00_scope.md R7, R13). -/
inductive Sg where
  | u
  | s
deriving DecidableEq, Repr

/-- A range of integers, both ends included: the value of `ulimits(N)` or `slimits(N)`
(40_foundation_scalar.md R72, R73). -/
structure Limits where
  min : Int
  max : Int
deriving DecidableEq, Repr

end Sys2Proof
end

