-- ==== Sys2Proof/Syntax.lean ====
section
/-! DEFINITION. The 13 commands (30_encoding.md R56), one constructor per row of spec/opcode_table.json. -/

namespace Sys2Proof

/-- Where an operand of a format A or M command comes from (30_encoding.md R55): a scalar register, or the
immediate port that belongs to the operand's position (`xi` for x, `yi` for y). The immediate itself travels beside
the command word (R50) and is no part of the instruction. -/
inductive Source where
  | reg (r : SReg)
  | imm
deriving DecidableEq, Repr

/-- A decoded command word. `rd` is the destination (the low half for a wide multiply), `rh` the destination of the
high half, `ra` a source register, `x` and `y` the two operands. -/
inductive Instr where
  /-- `ADDU rd, <x>, <y>` (43_add_sub.md R121) -/
  | addu (rd : SReg) (x y : Source)
  /-- `ADDS rd, <x>, <y>` (43_add_sub.md R123) -/
  | adds (rd : SReg) (x y : Source)
  /-- `SUBU rd, <x>, <y>` (43_add_sub.md R125) -/
  | subu (rd : SReg) (x y : Source)
  /-- `SUBS rd, <x>, <y>` (43_add_sub.md R127) -/
  | subs (rd : SReg) (x y : Source)
  /-- `MULU rd, <x>, <y>` (44_mul_div.md R131) -/
  | mulu (rd : SReg) (x y : Source)
  /-- `MULS rd, <x>, <y>` (44_mul_div.md R133) -/
  | muls (rd : SReg) (x y : Source)
  /-- `DIVU rd, <x>, <y>` (44_mul_div.md R135) -/
  | divu (rd : SReg) (x y : Source)
  /-- `DIVS rd, <x>, <y>` (44_mul_div.md R137) -/
  | divs (rd : SReg) (x y : Source)
  /-- `WMULU rh:rd, <x>, <y>` (41_wide_multiply.md R97) -/
  | wmulu (rh rd : SReg) (x y : Source)
  /-- `WMULS rh:rd, <x>, <y>` (41_wide_multiply.md R98) -/
  | wmuls (rh rd : SReg) (x y : Source)
  /-- `SET rd, #imm` (40_foundation_scalar.md R81) -/
  | set (rd : SReg)
  /-- `GETU ra` (40_foundation_scalar.md R82) -/
  | getu (ra : SReg)
  /-- `GETS ra` (40_foundation_scalar.md R83) -/
  | gets (ra : SReg)
deriving DecidableEq, Repr

end Sys2Proof
end

