-- ==== Sys2Proof/WellFormed.lean ====
section
/-! DEFINITION. Which commands are legal (30_encoding.md R60). The syntax already excludes every other illegal
form: an unused register field has no place in a `Source.imm`, and the fixed fields of formats C and G are no
arguments. What is left is the one constraint a mask cannot express, `rh != rd` (R54, R60 item 4). -/

namespace Sys2Proof

/-- The command has a legal command word (30_encoding.md R60). -/
def Instr.wellFormed : Instr → Bool
  | .addu _ _ _ => true
  | .adds _ _ _ => true
  | .subu _ _ _ => true
  | .subs _ _ _ => true
  | .mulu _ _ _ => true
  | .muls _ _ _ => true
  | .divu _ _ _ => true
  | .divs _ _ _ => true
  | .wmulu rh rd _ _ => rh != rd
  | .wmuls rh rd _ _ => rh != rd
  | .set _ => true
  | .getu _ => true
  | .gets _ => true

end Sys2Proof
end

