-- ==== Sys2Proof/Decode.lean ====
section
/-! DEFINITION. The command word's fields, the decoder (total on all `2^16` words, rejecting by name) and the
encoder (30_encoding.md R53 to R56, R60). -/

namespace Sys2Proof

/-! ## Fields of the command word (30_encoding.md R53) -/

/-- `op = cw[3:0]`. -/
def fieldOp (cw : CmdWord) : BitVec 4 := cw.extractLsb' 0 4
/-- `rd = cw[5:4]`. -/
def fieldRd (cw : CmdWord) : SReg := (cw.extractLsb' 4 2).toFin
/-- `ra = cw[7:6]`. -/
def fieldRa (cw : CmdWord) : SReg := (cw.extractLsb' 6 2).toFin
/-- `rb = cw[9:8]`. -/
def fieldRb (cw : CmdWord) : SReg := (cw.extractLsb' 8 2).toFin
/-- `ia = cw[10]`. -/
def fieldIa (cw : CmdWord) : Bool := cw.getLsbD 10
/-- `ib = cw[11]`. -/
def fieldIb (cw : CmdWord) : Bool := cw.getLsbD 11
/-- `rh = cw[13:12]`. -/
def fieldRh (cw : CmdWord) : SReg := (cw.extractLsb' 12 2).toFin
/-- `z = cw[15:14]`. -/
def fieldZ (cw : CmdWord) : BitVec 2 := cw.extractLsb' 14 2

/-! ## Decoding -/

/-- Why a command word is illegal: the item of 30_encoding.md R60 that holds. -/
inductive Illegal where
  /-- item 1: `op` is `0xB`, `0xE` or `0xF` -/
  | reservedOpcode
  /-- item 2: `z != 0` -/
  | reservedBits
  /-- item 3: `rh != 0` in a format that has no high half -/
  | highRegister
  /-- item 4: format M and `rh = rd` -/
  | sameDestinations
  /-- item 5: format A or M, `ia = 1` and `ra != 0` -/
  | unusedRa
  /-- item 6: format A or M, `ib = 1` and `rb != 0` -/
  | unusedRb
  /-- item 7: the fixed fields of format C -/
  | constructFields
  /-- item 8: the fixed fields of format G -/
  | getFields
deriving DecidableEq, Repr

/-- The operand form of one operand (30_encoding.md R55): with the immediate flag set, the register field must be
zero. -/
def decodeSource (isImm : Bool) (r : SReg) (why : Illegal) : Except Illegal Source :=
  if isImm then (if r = 0 then .ok .imm else .error why) else .ok (.reg r)

/-- The two operands of a format A or M word (30_encoding.md R55, R60 items 5 and 6). -/
def decodeOperands (cw : CmdWord) (k : Source → Source → Instr) : Except Illegal Instr :=
  match decodeSource (fieldIa cw) (fieldRa cw) .unusedRa with
  | .error e => .error e
  | .ok x =>
    match decodeSource (fieldIb cw) (fieldRb cw) .unusedRb with
    | .error e => .error e
    | .ok y => .ok (k x y)

/-- Format A (30_encoding.md R54): `rh = 0`. -/
def decodeA (cw : CmdWord) (k : SReg → Source → Source → Instr) : Except Illegal Instr :=
  if fieldRh cw ≠ 0 then .error .highRegister else decodeOperands cw (k (fieldRd cw))

/-- Format M (30_encoding.md R54): `rh != rd`. -/
def decodeM (cw : CmdWord) (k : SReg → SReg → Source → Source → Instr) : Except Illegal Instr :=
  if fieldRh cw = fieldRd cw then .error .sameDestinations
  else decodeOperands cw (k (fieldRh cw) (fieldRd cw))

/-- Format C (30_encoding.md R54): `ia = 1`, `ib = 0`, `ra = rb = rh = 0`. -/
def decodeC (cw : CmdWord) (k : SReg → Instr) : Except Illegal Instr :=
  if fieldRh cw ≠ 0 then .error .highRegister
  else if fieldIa cw = false ∨ fieldIb cw = true ∨ fieldRa cw ≠ 0 ∨ fieldRb cw ≠ 0 then
    .error .constructFields
  else .ok (k (fieldRd cw))

/-- Format G (30_encoding.md R54): `rd = rb = rh = 0`, `ia = ib = 0`. -/
def decodeG (cw : CmdWord) (k : SReg → Instr) : Except Illegal Instr :=
  if fieldRh cw ≠ 0 then .error .highRegister
  else if fieldRd cw ≠ 0 ∨ fieldRb cw ≠ 0 ∨ fieldIa cw = true ∨ fieldIb cw = true then
    .error .getFields
  else .ok (k (fieldRa cw))

/-- The opcode map (30_encoding.md R56), over a word whose reserved bits are zero. -/
def decodeOp (cw : CmdWord) : Except Illegal Instr :=
  match (fieldOp cw).toNat with
  | 0x0 => decodeA cw .addu
  | 0x1 => decodeA cw .adds
  | 0x2 => decodeA cw .subu
  | 0x3 => decodeA cw .subs
  | 0x4 => decodeA cw .mulu
  | 0x5 => decodeA cw .muls
  | 0x6 => decodeA cw .divu
  | 0x7 => decodeA cw .divs
  | 0x8 => decodeM cw .wmulu
  | 0x9 => decodeM cw .wmuls
  | 0xA => decodeC cw .set
  | 0xC => decodeG cw .getu
  | 0xD => decodeG cw .gets
  | _ => .error .reservedOpcode

/-- The decoder (30_encoding.md R60): every one of the `2^16` words is a command or is illegal by name. -/
def decode (cw : CmdWord) : Except Illegal Instr :=
  if fieldZ cw ≠ 0 then .error .reservedBits else decodeOp cw

/-- The instruction the decoder reads from an instruction whose bits are `w`, numbered as spec/opcode_table.json
numbers them. Bits at or above `nbits` count as zero (log 15); the command word is one 16-bit parallel bus
(20_memory.md R42), so there is no byte order to apply. -/
def decodeTableWord (nbits w : Nat) : Option Instr :=
  match decode (BitVec.ofNat 16 (w % 2 ^ nbits)) with
  | .ok i => some i
  | .error _ => none

/-! ## Encoding -/

/-- A register number as the two bits of its field. -/
def regBits (r : SReg) : BitVec 2 := BitVec.ofFin r

/-- The immediate flag of an operand (30_encoding.md R55). -/
def Source.flag : Source → BitVec 1
  | .reg _ => 0#1
  | .imm => 1#1

/-- The register field of an operand: zero where it is not used (30_encoding.md R55). -/
def Source.field : Source → BitVec 2
  | .reg r => regBits r
  | .imm => 0#2

/-- The command word from its fields, most significant first (30_encoding.md R53). -/
def packWord (rh : BitVec 2) (ib ia : BitVec 1) (rb ra rd : BitVec 2) (op : BitVec 4) : CmdWord :=
  0#2 ++ rh ++ ib ++ ia ++ rb ++ ra ++ rd ++ op

/-- The word of a format A or M command. -/
def packOperands (op : BitVec 4) (rh rd : BitVec 2) (x y : Source) : CmdWord :=
  packWord rh y.flag x.flag y.field x.field rd op

/-- The encoder (30_encoding.md R54 to R56): the command word of a command. On a command that is not well formed
(`rh = rd`) it gives the illegal word that has those fields. -/
def encode : Instr → CmdWord
  | .addu rd x y => packOperands 0x0 0 (regBits rd) x y
  | .adds rd x y => packOperands 0x1 0 (regBits rd) x y
  | .subu rd x y => packOperands 0x2 0 (regBits rd) x y
  | .subs rd x y => packOperands 0x3 0 (regBits rd) x y
  | .mulu rd x y => packOperands 0x4 0 (regBits rd) x y
  | .muls rd x y => packOperands 0x5 0 (regBits rd) x y
  | .divu rd x y => packOperands 0x6 0 (regBits rd) x y
  | .divs rd x y => packOperands 0x7 0 (regBits rd) x y
  | .wmulu rh rd x y => packOperands 0x8 (regBits rh) (regBits rd) x y
  | .wmuls rh rd x y => packOperands 0x9 (regBits rh) (regBits rd) x y
  | .set rd => packWord 0 0 1 0 0 (regBits rd) 0xA
  | .getu ra => packWord 0 0 0 0 (regBits ra) 0 0xC
  | .gets ra => packWord 0 0 0 0 (regBits ra) 0 0xD

end Sys2Proof
end

