-- ==== Sys2Proof/Config.lean ====
section
/-! DEFINITION. What is fixed for an instance when it is built. The spec has ONE elaboration-time parameter, the
width `N` (00_scope.md R5, R8). It stands in State (`State.width`), so that every statement over all states holds
of every instance; this file only says which instance `State.reset` is. -/

namespace Sys2Proof

/-- DESIGN CHOICE (log 2), unsafe: the instance whose reset state is `State.reset` has `N = 32`, the one width at
which the source gives examples (95_test_vectors.md section 1). Every other instance's reset state is
`State.resetAt`. -/
def Config.instanceWidth : Width := ⟨32, by decide, by decide⟩

end Sys2Proof
end

