-- ==== Sys2Proof/Machine/Foundation.lean ====
section
/-! DEFINITION. Conversions between bit patterns and integers (00_scope.md R13, R14), the Width/Limits Foundation
(40_foundation_scalar.md R70 to R74), and the pure part of the `nbit_scalar_register` unit (R75 to R78, R84).
All are functions of a width `n`; a machine uses them at `n = N`. -/

namespace Sys2Proof.Machine

variable {n w : Nat}

/-! ## Conversions (00_scope.md R13) -/

/-- `uval(b)`: the unsigned value. -/
def uval (b : BitVec n) : Int := b.toNat

/-- `sval(b)`: the two's complement value. -/
def sval (b : BitVec n) : Int := b.toInt

/-- `val(sg, b)`. -/
def val (sg : Sg) (b : BitVec n) : Int :=
  match sg with
  | .u => uval b
  | .s => sval b

/-- `trunc_n(v)`: the `n`-bit pattern congruent to `v` modulo `2^n`. -/
def trunc (n : Nat) (v : Int) : BitVec n := BitVec.ofInt n v

/-- `zext_m(b)`. -/
def zext (m : Nat) (b : BitVec n) : BitVec m := b.setWidth m

/-- `sext_m(b)`. -/
def sext (m : Nat) (b : BitVec n) : BitVec m := b.signExtend m

/-- `ext_m(sg, b)`. -/
def ext (m : Nat) (sg : Sg) (b : BitVec n) : BitVec m :=
  match sg with
  | .u => zext m b
  | .s => sext m b

/-! ## Integer operators (00_scope.md R14) -/

/-- `clamp(v, lo, hi)`. -/
def clamp (v lo hi : Int) : Int := if v < lo then lo else if v > hi then hi else v

/-- `floor_div(a, b)`: for `b > 0`, the greatest integer `q` with `q * b <= a`. -/
def floorDiv (a b : Int) : Int := Int.fdiv a b

/-- `tdiv(a, b)`: for `b != 0`, the quotient rounded toward zero (R14, 44_mul_div.md R139). -/
def tdiv (a b : Int) : Int := a.sign * b.sign * floorDiv a.natAbs b.natAbs

/-! ## Width/Limits Foundation -/

/-- `container(N)`, the smallest native container of at least `N` bits (40_foundation_scalar.md R70). -/
def container (n : Nat) : Nat :=
  if n ≤ 8 then 8 else if n ≤ 16 then 16 else if n ≤ 32 then 32 else 64

/-- `mask(n)`, with `mask(0) = 0` a base case (40_foundation_scalar.md R71). -/
def mask : Nat → Nat
  | 0 => 0
  | n + 1 => 2 ^ (n + 1) - 1

/-- `mask(n)` as an `m`-bit pattern: bits `n-1..0` are 1, the rest 0 (40_foundation_scalar.md R71). -/
def maskPattern (m n : Nat) : BitVec m := BitVec.ofNat m (mask n)

/-- `ulimits(N)` (40_foundation_scalar.md R72). -/
def ulimits (n : Nat) : Limits := ⟨0, mask n⟩

/-- `slimits(N)`, the maximum first and the minimum from it (40_foundation_scalar.md R73). -/
def slimits (n : Nat) : Limits :=
  let max : Int := 2 ^ (n - 1) - 1
  ⟨-max - 1, max⟩

/-- The limits of one signedness. -/
def limits (sg : Sg) (n : Nat) : Limits :=
  match sg with
  | .u => ulimits n
  | .s => slimits n

/-! ## The `nbit_scalar_register` unit -/

/-- Explicit construction from a native value: the low `n` bits, no check (40_foundation_scalar.md R77). -/
def scalarConstruct (n : Nat) (c : BitVec w) : BitVec n := c.setWidth n

/-- Read-back on a `w`-bit bus under a view (40_foundation_scalar.md R78). -/
def scalarRead (w : Nat) (sg : Sg) (q : BitVec n) : BitVec w := ext w sg q

/-- The unit as a register with ports (40_foundation_scalar.md R84): the stored bits after one command. `reset`
clears; a write stores the low bits of `wdata`. -/
def scalarNext (q : BitVec n) (reset we : Bool) (wdata : BitVec w) : BitVec n :=
  if reset then 0#n else if we then scalarConstruct n wdata else q

end Sys2Proof.Machine
end

