-- ==== Sys2Proof/Machine/State.lean ====
section
/-! DEFINITION. The state of one instance as plain data (10_state.md R32), with the host's side of the command
interface (30_encoding.md R50 to R52) beside it, and the reset state (70_reset_and_hazards.md R171). -/

namespace Sys2Proof.Machine

/-- `FLAGS` (10_state.md R24): bit 0 is `V` (the last arithmetic command returned a boundary value), bit 1 is `D`
(that value was the minimum). -/
structure Flags where
  v : Bool
  d : Bool
deriving DecidableEq, Repr

/-- `FAULT` (10_state.md R27): `F` is 1 when the block has faulted and ignores commands, `CAUSE` says why. -/
structure FaultLatch where
  f : Bool
  cause : BitVec 3
deriving DecidableEq, Repr

/-- The fault causes (60_exceptions.md R155). -/
inductive Cause where
  /-- R154: an illegal command word -/
  | illegal
  /-- R151: the immediate `xi` is out of range -/
  | xrange
  /-- R152: the immediate `yi` is out of range -/
  | yrange
  /-- R153: the divisor is zero -/
  | divzero
deriving DecidableEq, Repr

/-- What the host presents, one at a time (00_scope.md R9): a command `(cw, xi, yi)` with immediates of the
container width `w` (30_encoding.md R50), or the assertion of `reset` (70_reset_and_hazards.md R170). -/
inductive HostEvent (w : Nat) where
  | reset
  | command (cw : CmdWord) (xi yi : BitVec w)
deriving DecidableEq, Repr

/-- A response `(r, h, v, d, fault, cause)` on buses of the container width `w` (30_encoding.md R51, R52). -/
structure Response (w : Nat) where
  r : BitVec w
  h : BitVec w
  v : Bool
  d : Bool
  fault : Bool
  cause : BitVec 3
deriving DecidableEq, Repr

/-- The state of one instance. `sreg`, `flags` and `fault` are the whole architectural state (10_state.md R32).
The other fields are the model's: `width` is the instance's parameter, which no step changes (log 1); `xi` and `yi`
are the immediate ports of the command being executed, `inputs` is what the host still presents (log 3), and
`responses` are the responses returned so far, oldest first (log 4). -/
structure State where
  width : Width
  sreg : Vector (BitVec width.bits) 4
  flags : Flags
  fault : FaultLatch
  xi : BitVec (container width.bits)
  yi : BitVec (container width.bits)
  inputs : List (HostEvent (container width.bits))
  responses : List (Response (container width.bits))
deriving DecidableEq, Repr

/-- Why the machine stops. Nothing a command does stops it: fault entry is a next state (60_exceptions.md R156,
log 6). -/
inductive Fault where
  /-- Raised by the step when the host presents nothing more and `FAULT.F = 1`: the run has faulted with this
  cause (60_exceptions.md R157, 70_reset_and_hazards.md R182, log 5). Safe: a run that ends so is never counted as
  good. -/
  | runFaulted (cause : BitVec 3)
deriving DecidableEq, Repr

/-- Why the model gives an instruction no meaning. -/
inductive Refusal where
  /-- Raised by an arm of `exec` whose instruction has no meaning yet; no arm answers so now. Safe. -/
  | notModelled (mnemonic : String)
deriving DecidableEq, Repr

/-- The reset state of the instance of width `c` (70_reset_and_hazards.md R171, 10_state.md R31), with nothing
presented and nothing answered (log 10). The ports' values are the model's (log 16). -/
def State.resetAt (c : Width) : State where
  width := c
  sreg := Vector.replicate 4 0#c.bits
  flags := ⟨false, false⟩
  fault := ⟨false, 0#3⟩
  xi := 0#(container c.bits)
  yi := 0#(container c.bits)
  inputs := []
  responses := []

/-- The machine right after reset, for the instance that `Config` names (log 2). -/
def State.reset : State := State.resetAt Config.instanceWidth

end Sys2Proof.Machine
end

