-- ==== Sys2Proof/Machine/Ops.lean ====
section
/-! DEFINITION. The named operations over the state: reading and writing a scalar register, returning a response,
taking a fault and leaving it by reset, and the frame every command runs in. -/

namespace Sys2Proof.Machine

/-- The outcome of one step of this machine. -/
abbrev Result := Host.Outcome State Fault Refusal

/-- The width `N` of the instance (00_scope.md R5). -/
abbrev State.bits (s : State) : Nat := s.width.bits

/-- The container width `W` of the instance (00_scope.md R6): the width of the operand and result buses. -/
abbrev State.busWidth (s : State) : Nat := container s.width.bits

/-- The code of a cause (60_exceptions.md R155). -/
def Cause.code : Cause → BitVec 3
  | .illegal => 1#3
  | .xrange => 2#3
  | .yrange => 3#3
  | .divzero => 4#3

/-- `FLAGS` as the 2-bit register of 10_state.md R24: bit 0 is `V`, bit 1 is `D`. -/
def Flags.word (f : Flags) : BitVec 2 := BitVec.ofBool f.d ++ BitVec.ofBool f.v

/-! ## Scalar registers (10_state.md R20 to R22) -/

/-- `s[i]`, the `N` stored bits. -/
def State.readReg (s : State) (i : SReg) : BitVec s.bits := s.sreg[i]

/-- `val(sg, s[i])`: the register's value under a view (10_state.md R21). -/
def State.regVal (s : State) (sg : Sg) (i : SReg) : Int := val sg (s.readReg i)

/-- `s[i] <- b`: every register is an ordinary one, none is hardwired (10_state.md R20). -/
def State.writeReg (s : State) (i : SReg) (b : BitVec s.bits) : State :=
  { s with sreg := s.sreg.set i b }

/-- `FLAGS.V <- v` and `FLAGS.D <- d`, always together (10_state.md R26). -/
def State.setFlags (s : State) (v d : Bool) : State := { s with flags := ⟨v, d⟩ }

/-- `FAULT.F <- 1` and `FAULT.CAUSE <- c`, always together (10_state.md R27, 60_exceptions.md R156). -/
def State.latchFault (s : State) (c : Cause) : State := { s with fault := ⟨true, c.code⟩ }

/-! ## Responses (30_encoding.md R52) -/

/-- `rsp <- (r, h)`: the flag and fault fields are copies of `FLAGS` and `FAULT` in the state given, which is the
state after the command. -/
def State.respond (s : State) (r h : BitVec s.busWidth) : State :=
  { s with responses := s.responses ++ [⟨r, h, s.flags.v, s.flags.d, s.fault.f, s.fault.cause⟩] }

/-! ## Faults and reset -/

/-- Fault entry, `raise Fault(c)` (60_exceptions.md R156): the latch is set, the registers and `FLAGS` keep their
values, the response data are zero. Nothing is saved and control goes nowhere. -/
def State.raise (s : State) (c : Cause) : State := (s.latchFault c).respond 0 0

/-- A command in the faulted state (60_exceptions.md R157): nothing changes, the response data are zero. -/
def State.ignore (s : State) : State := s.respond 0 0

/-- Reset (70_reset_and_hazards.md R170, R171), the only way out of the faulted state (60_exceptions.md R160): the
whole architectural state goes to its reset value. What the host presents and what was answered before are the
host's and stay (log 4). -/
def State.resetBlock (s : State) : State :=
  { s with
    sreg := Vector.replicate 4 0#s.width.bits
    flags := ⟨false, false⟩
    fault := ⟨false, 0#3⟩ }

/-- The frame of every command (30_encoding.md R62 step 1): while `FAULT.F = 1` the command is ignored, else it has
its effect. -/
def State.command (s : State) (effect : State) : Result :=
  .next (if s.fault.f then s.ignore else effect)

/-- An illegal command word (30_encoding.md R62 steps 1 and 2, 60_exceptions.md R154). -/
def execIllegal (s : State) : Result := s.command (s.raise .illegal)

/-- The assertion of reset between two commands; it has no response (70_reset_and_hazards.md R170, R172). -/
def execReset (s : State) : Result := .next s.resetBlock

/-- The host presents nothing: the block does nothing (00_scope.md R9). The run is over; if `FAULT.F = 1` it has
faulted, which is a fault outcome and no final state (60_exceptions.md R157, 70_reset_and_hazards.md R182, log 5). -/
def execIdle (s : State) : Result :=
  if s.fault.f then .fault (.runFaulted s.fault.cause) else .next s

end Sys2Proof.Machine
end

