-- ==== Sys2Proof/Machine/Operands.lean ====
section
/-! DEFINITION. Operand fetch for formats A and M (30_encoding.md R55, R57, R58, R67). -/

namespace Sys2Proof.Machine

variable {w : Nat}

/-- `inrange(sg, c)`: whether a container pattern is in range at width `n` (30_encoding.md R58). -/
def inrange (sg : Sg) (n : Nat) (c : BitVec w) : Bool :=
  match sg with
  | .u => decide (uval c ≤ mask n)
  | .s => decide ((slimits n).min ≤ sval c) && decide (sval c ≤ (slimits n).max)

/-- `cval(sg, c)`: a container pattern read at its full width (30_encoding.md R57). -/
def cval (sg : Sg) (c : BitVec w) : Int := val sg c

/-- One operand: a register read under the command's view, which is always in range (10_state.md R21), or the
immediate on its port, checked and taken at face value (30_encoding.md R57). A port that is not used is not looked
at (R67). -/
def State.operand (s : State) (sg : Sg) (src : Source) (port : BitVec s.busWidth) (c : Cause) :
    Except Cause Int :=
  match src with
  | .reg r => .ok (s.regVal sg r)
  | .imm => if inrange sg s.bits port then .ok (cval sg port) else .error c

/-- `opx(sg)` (30_encoding.md R57). -/
def State.opx (s : State) (sg : Sg) (x : Source) : Except Cause Int := s.operand sg x s.xi .xrange

/-- `opy(sg)` (30_encoding.md R57). -/
def State.opy (s : State) (sg : Sg) (y : Source) : Except Cause Int := s.operand sg y s.yi .yrange

/-- Both operands, x before y, so that `XRANGE` wins over `YRANGE` (30_encoding.md R57, 60_exceptions.md R158). -/
def State.operands (s : State) (sg : Sg) (x y : Source) : Except Cause (Int × Int) :=
  match s.opx sg x with
  | .error c => .error c
  | .ok vx =>
    match s.opy sg y with
    | .error c => .error c
    | .ok vy => .ok (vx, vy)

end Sys2Proof.Machine
end

