-- ==== Sys2Proof/Machine/WideMultiply.lean ====
section
/-! DEFINITION. The `wide_multiply_unit`: its contract (41_wide_multiply.md R90, normative), the half-word algorithm
that is one realisation of it (R92 to R96, informative), and the commands WMULU and WMULS (R97, R98). -/

namespace Sys2Proof.Machine

/-- A double-width product split into two `n`-bit halves (41_wide_multiply.md R90). -/
structure Halves (n : Nat) where
  hi : BitVec n
  lo : BitVec n
deriving DecidableEq, Repr

/-! ## The contract -/

/-- `wmul(sg, x, y)` (41_wide_multiply.md R90): the exact product as a `2n`-bit pattern, split at bit `n`. The
signedness has done its work when `x` and `y` were read as integers, so it is no argument here. -/
def wmul (n : Nat) (x y : Int) : Halves n :=
  let p := trunc (2 * n) (x * y)
  ⟨p.extractLsb' n n, p.extractLsb' 0 n⟩

/-! ## The half-word algorithm at the container width `w`, `k = w / 2` -/

/-- The low half of a word, `X & m` with `m = 2^k - 1` (41_wide_multiply.md R94). -/
def lowHalf (w : Nat) (v : BitVec w) : BitVec w := v &&& maskPattern w (w / 2)

/-- The unsigned core (41_wide_multiply.md R94), every quantity a `w`-bit word. -/
def wideCoreU (w : Nat) (X Y : BitVec w) : Halves w :=
  let k := w / 2
  let x0 := lowHalf w X
  let x1 := X >>> k
  let y0 := lowHalf w Y
  let y1 := Y >>> k
  let p00 := x0 * y0
  let p01 := x0 * y1
  let p10 := x1 * y0
  let p11 := x1 * y1
  let mid := (p00 >>> k) + lowHalf w p01 + lowHalf w p10
  ⟨p11 + (p01 >>> k) + (p10 >>> k) + (mid >>> k), lowHalf w p00 ||| (lowHalf w mid <<< k)⟩

/-- The signed core (41_wide_multiply.md R93, R95), every quantity a `w`-bit word: the high halves come from the
arithmetic shift. -/
def wideCoreS (w : Nat) (X Y : BitVec w) : Halves w :=
  let k := w / 2
  let u0 := lowHalf w X
  let u1 := X.sshiftRight k
  let v0 := lowHalf w Y
  let v1 := Y.sshiftRight k
  let w0 := u0 * v0
  let t := u1 * v0 + (w0 >>> k)
  let w1 := u0 * v1 + lowHalf w t
  let w2 := t.sshiftRight k
  ⟨u1 * v1 + w2 + w1.sshiftRight k, X * Y⟩

/-- The core step for one signedness (41_wide_multiply.md R92). -/
def wideCore (sg : Sg) (w : Nat) (X Y : BitVec w) : Halves w :=
  match sg with
  | .u => wideCoreU w X Y
  | .s => wideCoreS w X Y

/-- The post-step, word by word (41_wide_multiply.md R96): the dividing line moves from bit `w` to bit `n`. For
`n = w` no shift is evaluated. -/
def wideAdjust (w n : Nat) (p : Halves w) : Halves n :=
  if n = w then ⟨p.hi.setWidth n, p.lo.setWidth n⟩
  else
    ⟨(((p.hi <<< (w - n)) ||| (p.lo >>> n)) &&& maskPattern w n).setWidth n,
      (p.lo &&& maskPattern w n).setWidth n⟩

/-- The source's algorithm from end to end (41_wide_multiply.md R92 to R96): the operands as container patterns,
the core at the container width, the post-step at `n`. -/
def wmulByHalves (sg : Sg) (n : Nat) (x y : Int) : Halves n :=
  let w := container n
  wideAdjust w n (wideCore sg w (ext w sg (trunc n x)) (ext w sg (trunc n y)))

/-! ## The commands -/

/-- Write-back and response of a format M command (41_wide_multiply.md R97, R98): both halves are written together,
`FLAGS` is unchanged. The two destinations differ, so the order of the two writes does not show. -/
def State.completeWide (s : State) (sg : Sg) (rh rd : SReg) (p : Halves s.bits) : State :=
  ((s.writeReg rd p.lo).writeReg rh p.hi).respond (ext s.busWidth sg p.lo) (ext s.busWidth sg p.hi)

/-- A format M command. `rh = rd` is an illegal command (30_encoding.md R60 item 4, 70_reset_and_hazards.md R178);
no decoded word has it (log 14). -/
def State.wide (s : State) (sg : Sg) (rh rd : SReg) (x y : Source) : Result :=
  s.command
    (if rh = rd then s.raise .illegal
    else
      match s.operands sg x y with
      | .error c => s.raise c
      | .ok (vx, vy) => s.completeWide sg rh rd (wmul s.bits vx vy))

/-- `WMULU rh:rd, <x>, <y>` (41_wide_multiply.md R97). -/
def execWmulu (rh rd : SReg) (x y : Source) (s : State) : Result := s.wide .u rh rd x y

/-- `WMULS rh:rd, <x>, <y>` (41_wide_multiply.md R98). -/
def execWmuls (rh rd : SReg) (x y : Source) (s : State) : Result := s.wide .s rh rd x y

end Sys2Proof.Machine
end

