-- ==== Sys2Proof/Machine/Flags.lean ====
section
/-! DEFINITION. The `overflow_detector` (42_overflow_detector.md): the eight predicates, the boundary values, the
`dir` output, and the write-back of an arithmetic command with its flags (30_encoding.md R59). Throughout, `x` and
`y` are integers in range for the operation's signedness at width `n`. -/

namespace Sys2Proof.Machine

variable {n : Nat}

/-! ## Unsigned predicates -/

/-- `ovf_addu` (42_overflow_detector.md R101): the container sum wrapped, or used bits above `n`. -/
def ovfAddu (n : Nat) (x y : Int) : Bool :=
  let res := trunc (container n) (x + y)
  decide (uval res < x) || decide (uval res > mask n)

/-- `ovf_subu` (42_overflow_detector.md R102): the container difference wrapped below zero. -/
def ovfSubu (n : Nat) (x y : Int) : Bool :=
  let res := trunc (container n) (x - y)
  decide (uval res > x)

/-- `ovf_mulu` (42_overflow_detector.md R103): the high half is not zero. -/
def ovfMulu (n : Nat) (x y : Int) : Bool := decide ((wmul n x y).hi ≠ 0)

/-- `ovf_divu` (42_overflow_detector.md R104): never. -/
def ovfDivu (_n : Nat) (_x _y : Int) : Bool := false

/-! ## Signed predicates -/

/-- `ovf_adds` (42_overflow_detector.md R105): operands of one sign, a sum of the other. -/
def ovfAdds (n : Nat) (x y : Int) : Bool :=
  let ux := trunc n x
  let uy := trunc n y
  let ur := ux + uy
  (ux.msb == uy.msb) && (ur.msb != ux.msb)

/-- `ovf_subs` (42_overflow_detector.md R106): operands of opposite sign, a difference with the subtrahend's. -/
def ovfSubs (n : Nat) (x y : Int) : Bool :=
  let ux := trunc n x
  let uy := trunc n y
  let ur := ux - uy
  (ux.msb != uy.msb) && (ur.msb == uy.msb)

/-- `ovf_muls` (42_overflow_detector.md R107): the high half is not the sign of the low half repeated. -/
def ovfMuls (n : Nat) (x y : Int) : Bool :=
  let p := wmul n x y
  decide (p.hi ≠ p.lo.sshiftRight (n - 1))

/-- `ovf_divs` (42_overflow_detector.md R108): the identity that is zero only for the minimum divided by -1,
evaluated on the unsigned patterns. -/
def ovfDivs (n : Nat) (x y : Int) : Bool :=
  let z := (trunc n y + 1) ||| (trunc n x - trunc n (slimits n).min)
  decide (z = 0)

/-! ## Bit-trick forms of the two sign rules (42_overflow_detector.md R114, informative) -/

/-- `((ux ^ ur) & (uy ^ ur))[N-1]`. -/
def ovfAddsTrick (n : Nat) (x y : Int) : Bool :=
  let ux := trunc n x
  let uy := trunc n y
  let ur := ux + uy
  ((ux ^^^ ur) &&& (uy ^^^ ur)).getLsbD (n - 1)

/-- `((ux ^ uy) & (ux ^ ur))[N-1]`. -/
def ovfSubsTrick (n : Nat) (x y : Int) : Bool :=
  let ux := trunc n x
  let uy := trunc n y
  let ur := ux - uy
  ((ux ^^^ uy) &&& (ux ^^^ ur)).getLsbD (n - 1)

/-! ## Boundary values -/

/-- `bound_s(b)` (42_overflow_detector.md R110), evaluated in the unsigned `n`-bit domain: the pattern of the
maximum for `b = 0`, of the minimum for `b = 1`. -/
def boundS (n : Nat) (b : Bool) : BitVec n :=
  (BitVec.ofBool b).setWidth n + trunc n (slimits n).max

/-! ## The unit -/

/-- The four operations (42_overflow_detector.md R100). -/
inductive ArithOp where
  | add
  | sub
  | mul
  | div
deriving DecidableEq, Repr

/-- The unit's outputs (42_overflow_detector.md R100): `ovf`, `dir`, and the boundary value to return when `ovf`
is 1. Unsigned division has no boundary value (R109). -/
structure Detected (n : Nat) where
  ovf : Bool
  dir : Bool
  bound : Option (BitVec n)
deriving DecidableEq, Repr

/-- The `overflow_detector` (42_overflow_detector.md R100; predicates R101 to R108, boundary values R109 to R111,
`dir` R112). -/
def detect (op : ArithOp) (sg : Sg) (n : Nat) (x y : Int) : Detected n :=
  let sx := (trunc n x).msb
  let sy := (trunc n y).msb
  match op, sg with
  | .add, .u => ⟨ovfAddu n x y, false, some (maskPattern n n)⟩
  | .add, .s => ⟨ovfAdds n x y, ovfAdds n x y && sx, some (boundS n sx)⟩
  | .sub, .u => ⟨ovfSubu n x y, ovfSubu n x y, some 0⟩
  | .sub, .s => ⟨ovfSubs n x y, ovfSubs n x y && sx, some (boundS n sx)⟩
  | .mul, .u => ⟨ovfMulu n x y, false, some (maskPattern n n)⟩
  | .mul, .s => ⟨ovfMuls n x y, ovfMuls n x y && (sx ^^ sy), some (boundS n (sx ^^ sy))⟩
  | .div, .u => ⟨ovfDivu n x y, false, none⟩
  | .div, .s => ⟨ovfDivs n x y, false, some (trunc n (slimits n).max)⟩

/-! ## Write-back of an arithmetic command -/

/-- What a saturating unit gives: the result, in range for the command's signedness (42_overflow_detector.md R115),
and the detector's two flags. -/
structure ArithOut where
  res : Int
  ovf : Bool
  dir : Bool
deriving DecidableEq, Repr

/-- A result with the detector's flags for the operation (42_overflow_detector.md R100, R112). -/
def detected (op : ArithOp) (sg : Sg) (n : Nat) (x y res : Int) : ArithOut :=
  ⟨res, (detect op sg n x y).ovf, (detect op sg n x y).dir⟩

/-- Write-back and response of a format A command (30_encoding.md R59; FLAGS 10_state.md R25, R26). -/
def State.completeArith (s : State) (sg : Sg) (rd : SReg) (o : ArithOut) : State :=
  let b := trunc s.bits o.res
  ((s.writeReg rd b).setFlags o.ovf o.dir).respond (ext s.busWidth sg b) 0

/-- A format A command around one of the saturating units (30_encoding.md R62): operands, then the unit, which for
the divider may raise a fault of its own, then the write-back. -/
def State.arith (s : State) (sg : Sg) (rd : SReg) (x y : Source)
    (unit : Nat → Int → Int → Except Cause ArithOut) : Result :=
  s.command
    (match s.operands sg x y with
    | .error c => s.raise c
    | .ok (vx, vy) =>
      match unit s.bits vx vy with
      | .error c => s.raise c
      | .ok o => s.completeArith sg rd o)

end Sys2Proof.Machine
end

