-- ==== Sys2Proof/Machine/AddSub.lean ====
section
/-! DEFINITION. The `saturating_adder` and the `saturating_subtractor` (43_add_sub.md): the source's functions in
lower case, then the commands ADDU, ADDS, SUBU, SUBS. -/

namespace Sys2Proof.Machine

/-- `addu(x, y)` (43_add_sub.md R120). -/
def addu (n : Nat) (x y : Int) : Int :=
  let res := trunc (container n) (x + y)
  if ovfAddu n x y then mask n else uval (res &&& maskPattern (container n) n)

/-- `adds(x, y)` (43_add_sub.md R122). -/
def adds (n : Nat) (x y : Int) : Int :=
  let ux := trunc n x
  let uy := trunc n y
  sval (if ovfAdds n x y then boundS n ux.msb else ux + uy)

/-- `subu(x, y)` (43_add_sub.md R124). -/
def subu (n : Nat) (x y : Int) : Int :=
  let res := trunc (container n) (x - y)
  if ovfSubu n x y then 0 else uval (res &&& maskPattern (container n) n)

/-- `subs(x, y)` (43_add_sub.md R126). -/
def subs (n : Nat) (x y : Int) : Int :=
  let ux := trunc n x
  let uy := trunc n y
  sval (if ovfSubs n x y then boundS n ux.msb else ux - uy)

/-- The `saturating_adder`: a sum and its flags; it never fails (60_exceptions.md R161). -/
def saturatingAdder (sg : Sg) (n : Nat) (x y : Int) : Except Cause ArithOut :=
  match sg with
  | .u => .ok (detected .add .u n x y (addu n x y))
  | .s => .ok (detected .add .s n x y (adds n x y))

/-- The `saturating_subtractor`: the difference x minus y and its flags. -/
def saturatingSubtractor (sg : Sg) (n : Nat) (x y : Int) : Except Cause ArithOut :=
  match sg with
  | .u => .ok (detected .sub .u n x y (subu n x y))
  | .s => .ok (detected .sub .s n x y (subs n x y))

/-- `ADDU rd, <x>, <y>` (43_add_sub.md R121). -/
def execAddu (rd : SReg) (x y : Source) (s : State) : Result := s.arith .u rd x y (saturatingAdder .u)

/-- `ADDS rd, <x>, <y>` (43_add_sub.md R123). -/
def execAdds (rd : SReg) (x y : Source) (s : State) : Result := s.arith .s rd x y (saturatingAdder .s)

/-- `SUBU rd, <x>, <y>` (43_add_sub.md R125). -/
def execSubu (rd : SReg) (x y : Source) (s : State) : Result := s.arith .u rd x y (saturatingSubtractor .u)

/-- `SUBS rd, <x>, <y>` (43_add_sub.md R127). -/
def execSubs (rd : SReg) (x y : Source) (s : State) : Result := s.arith .s rd x y (saturatingSubtractor .s)

end Sys2Proof.Machine
end

