-- ==== Sys2Proof/Machine/MulDiv.lean ====
section
/-! DEFINITION. The `saturating_multiplier` and the `saturating_divider` (44_mul_div.md): the source's functions in
lower case, then the commands MULU, MULS, DIVU, DIVS. -/

namespace Sys2Proof.Machine

/-- `mulu(x, y)` (44_mul_div.md R130). -/
def mulu (n : Nat) (x y : Int) : Int :=
  if ovfMulu n x y then mask n else uval (wmul n x y).lo

/-- `muls(x, y)` (44_mul_div.md R132). -/
def muls (n : Nat) (x y : Int) : Int :=
  sval (if ovfMuls n x y then boundS n ((trunc n x).msb ^^ (trunc n y).msb) else (wmul n x y).lo)

/-- `divu(x, y)` (44_mul_div.md R134). Division by zero has no quotient at all (R138, log 9). -/
def divu (_n : Nat) (x y : Int) : Option Int :=
  if y = 0 then none else some (floorDiv x y)

/-- `divs(x, y)` (44_mul_div.md R136): the dividend is moved by one in the one unsafe case, then divided with
rounding toward zero (R139, log 7). Division by zero has no quotient (R138, log 9). -/
def divs (n : Nat) (x y : Int) : Option Int :=
  if y = 0 then none else some (tdiv (x + if ovfDivs n x y then 1 else 0) y)

/-- The `saturating_multiplier`: a product and its flags; it never fails (60_exceptions.md R161). -/
def saturatingMultiplier (sg : Sg) (n : Nat) (x y : Int) : Except Cause ArithOut :=
  match sg with
  | .u => .ok (detected .mul .u n x y (mulu n x y))
  | .s => .ok (detected .mul .s n x y (muls n x y))

/-- The quotient of one signedness, if there is one. -/
def quotient (sg : Sg) (n : Nat) (x y : Int) : Option Int :=
  match sg with
  | .u => divu n x y
  | .s => divs n x y

/-- The `saturating_divider`: a quotient and its flags, or `DIVZERO` (44_mul_div.md R135, R137, R138;
60_exceptions.md R153). -/
def saturatingDivider (sg : Sg) (n : Nat) (x y : Int) : Except Cause ArithOut :=
  match quotient sg n x y with
  | none => .error .divzero
  | some q => .ok (detected .div sg n x y q)

/-- `MULU rd, <x>, <y>` (44_mul_div.md R131). -/
def execMulu (rd : SReg) (x y : Source) (s : State) : Result := s.arith .u rd x y (saturatingMultiplier .u)

/-- `MULS rd, <x>, <y>` (44_mul_div.md R133). -/
def execMuls (rd : SReg) (x y : Source) (s : State) : Result := s.arith .s rd x y (saturatingMultiplier .s)

/-- `DIVU rd, <x>, <y>` (44_mul_div.md R135). -/
def execDivu (rd : SReg) (x y : Source) (s : State) : Result := s.arith .u rd x y (saturatingDivider .u)

/-- `DIVS rd, <x>, <y>` (44_mul_div.md R137). -/
def execDivs (rd : SReg) (x y : Source) (s : State) : Result := s.arith .s rd x y (saturatingDivider .s)

end Sys2Proof.Machine
end

