-- ==== Sys2Proof/Machine/Scalar.lean ====
section
/-! DEFINITION. The commands on the scalar registers (40_foundation_scalar.md R81 to R83): SET, GETU, GETS. -/

namespace Sys2Proof.Machine

/-- `SET rd, #imm` (40_foundation_scalar.md R81): truncates the immediate, never range-checks it, and answers the
stored bits zero-extended. -/
def execSet (rd : SReg) (s : State) : Result :=
  s.command
    (let b := scalarConstruct s.bits s.xi
    (s.writeReg rd b).respond (scalarRead s.busWidth .u b) 0)

/-- A read of a register under a view (40_foundation_scalar.md R78): only the response. -/
def State.get (s : State) (sg : Sg) (ra : SReg) : Result :=
  s.command (s.respond (scalarRead s.busWidth sg (s.readReg ra)) 0)

/-- `GETU ra` (40_foundation_scalar.md R82). -/
def execGetu (ra : SReg) (s : State) : Result := s.get .u ra

/-- `GETS ra` (40_foundation_scalar.md R83). -/
def execGets (ra : SReg) (s : State) : Result := s.get .s ra

end Sys2Proof.Machine
end

