-- ==== Sys2Proof/Machine/Dispatch.lean ====
section
/-! DEFINITION. The meaning of every command, one arm per constructor of Instr (30_encoding.md R56). -/

namespace Sys2Proof.Machine

def exec (i : Instr) (s : State) : Host.Outcome State Fault Refusal :=
  match i with
  | .addu rd x y => Sys2Proof.Machine.execAddu rd x y s
  | .adds rd x y => Sys2Proof.Machine.execAdds rd x y s
  | .subu rd x y => Sys2Proof.Machine.execSubu rd x y s
  | .subs rd x y => Sys2Proof.Machine.execSubs rd x y s
  | .mulu rd x y => Sys2Proof.Machine.execMulu rd x y s
  | .muls rd x y => Sys2Proof.Machine.execMuls rd x y s
  | .divu rd x y => Sys2Proof.Machine.execDivu rd x y s
  | .divs rd x y => Sys2Proof.Machine.execDivs rd x y s
  | .wmulu rh rd x y => Sys2Proof.Machine.execWmulu rh rd x y s
  | .wmuls rh rd x y => Sys2Proof.Machine.execWmuls rh rd x y s
  | .set rd => Sys2Proof.Machine.execSet rd s
  | .getu ra => Sys2Proof.Machine.execGetu ra s
  | .gets ra => Sys2Proof.Machine.execGets ra s

end Sys2Proof.Machine
end

