-- ==== Sys2Proof/Machine/Fetch.lean ====
section
/-! DEFINITION. Taking the next event from the host (00_scope.md R9, 30_encoding.md R50, 20_memory.md R47). There is
no program counter and no instruction memory (10_state.md R28, 20_memory.md R49). -/

namespace Sys2Proof.Machine

/-- What the block finds on its inputs, with the state after taking it. -/
inductive Fetched where
  /-- nothing is presented -/
  | nothing
  /-- `reset` is asserted -/
  | reset (s : State)
  /-- a command word; its immediates are on the ports of the state given -/
  | command (cw : CmdWord) (s : State)
deriving DecidableEq, Repr

/-- The next event in the order presented; a command's immediates are put on the ports. -/
def fetch (s : State) : Fetched :=
  match s.inputs with
  | [] => .nothing
  | .reset :: rest => .reset { s with inputs := rest }
  | .command cw xi yi :: rest => .command cw { s with inputs := rest, xi := xi, yi := yi }

/-- The host presents these events after those it already presents. -/
def State.present (s : State) (es : List (HostEvent s.busWidth)) : State :=
  { s with inputs := s.inputs ++ es }

/-- The host presents one command as the very next event, with both immediates zero. The word is `w` below bit
`nbits` and zero above (log 10, log 15). -/
def State.presentWord (s : State) (nbits w : Nat) : State :=
  { s with inputs := .command (BitVec.ofNat 16 (w % 2 ^ nbits)) 0 0 :: s.inputs }

end Sys2Proof.Machine
end

