-- ==== Sys2Proof/Machine/Step.lean ====
section
/-! DEFINITION. One step of the machine (00_scope.md R10, 30_encoding.md R62): one event of the host, taken and
answered. -/

namespace Sys2Proof.Machine

/-- One step. A command word is decoded first; an illegal one raises ILLEGAL, a legal one has its meaning. Both
look at `FAULT.F` before anything else (30_encoding.md R62). -/
def step (s : State) : Host.Outcome State Fault Refusal :=
  match fetch s with
  | .nothing => execIdle s
  | .reset t => execReset t
  | .command cw t =>
    match decode cw with
    | .error _ => execIllegal t
    | .ok i => exec i t

/-- `s` with the instruction whose bits are `w` presented as the very next command, both immediates zero. -/
def State.withFetchWord (s : State) (nbits w : Nat) : State := s.presentWord nbits w

end Sys2Proof.Machine
end

