-- ==== Sys2Proof/Machine/Assembler.lean ====
section
/-! DEFINITION. The assembler of 30_encoding.md R63 to R65 on terms: from a mnemonic with its operands to the command
`(cw, xi, yi)`. The concrete text of a line is not modelled (log 17). -/

namespace Sys2Proof.Machine

/-- An operand in a listing: a register, or an immediate `#k` (30_encoding.md R63). -/
inductive AsmOperand where
  | reg (r : SReg)
  | imm (k : Int)
deriving DecidableEq, Repr

/-- A line of assembly: a command (30_encoding.md R63) or a pseudo-instruction (R65). -/
inductive Asm where
  | arith (op : ArithOp) (sg : Sg) (rd : SReg) (x y : AsmOperand)
  | wmul (sg : Sg) (rh rd : SReg) (x y : AsmOperand)
  | set (rd : SReg) (k : Int)
  | get (sg : Sg) (ra : SReg)
  | mov (rd ra : SReg)
  | clr (rd : SReg)
  | negs (rd ra : SReg)
  | rdflags
deriving DecidableEq, Repr

/-- The expansion of a pseudo-instruction; every other line is its own (30_encoding.md R65). -/
def Asm.expand : Asm → Asm
  | .mov rd ra => .arith .add .u rd (.reg ra) (.imm 0)
  | .clr rd => .set rd 0
  | .negs rd ra => .arith .sub .s rd (.imm 0) (.reg ra)
  | .rdflags => .get .u 0
  | a => a

/-- Where an operand's value comes from in the command word (30_encoding.md R63). -/
def AsmOperand.source : AsmOperand → Source
  | .reg r => .reg r
  | .imm _ => .imm

/-- The pattern of an immediate on a `w`-bit port: any `k` with `-2^(w-1) <= k <= 2^w - 1` (30_encoding.md R64). It
is not range-checked against `N`. -/
def asmImmediate (w : Nat) (k : Int) : Option (BitVec w) :=
  if -(2 ^ (w - 1)) ≤ k ∧ k ≤ 2 ^ w - 1 then some (trunc w k) else none

/-- The port of an operand: an unused port is written as 0 (30_encoding.md R64). -/
def AsmOperand.port (w : Nat) : AsmOperand → Option (BitVec w)
  | .reg _ => some 0
  | .imm k => asmImmediate w k

/-- The command of an arithmetic mnemonic (30_encoding.md R56). -/
def arithInstr (op : ArithOp) (sg : Sg) (rd : SReg) (x y : Source) : Instr :=
  match op, sg with
  | .add, .u => .addu rd x y
  | .add, .s => .adds rd x y
  | .sub, .u => .subu rd x y
  | .sub, .s => .subs rd x y
  | .mul, .u => .mulu rd x y
  | .mul, .s => .muls rd x y
  | .div, .u => .divu rd x y
  | .div, .s => .divs rd x y

/-- The command of a wide multiply mnemonic (30_encoding.md R56). -/
def wmulInstr (sg : Sg) (rh rd : SReg) (x y : Source) : Instr :=
  match sg with
  | .u => .wmulu rh rd x y
  | .s => .wmuls rh rd x y

/-- The command with its two operands' ports. -/
def asmCommand (w : Nat) (i : Instr) (x y : AsmOperand) : Option (HostEvent w) :=
  match x.port w, y.port w with
  | some xi, some yi => some (.command (encode i) xi yi)
  | _, _ => none

/-- The command of one line that is no pseudo-instruction. -/
def Asm.assembleCore (w : Nat) : Asm → Option (HostEvent w)
  | .arith op sg rd x y => asmCommand w (arithInstr op sg rd x.source y.source) x y
  | .wmul sg rh rd x y => asmCommand w (wmulInstr sg rh rd x.source y.source) x y
  | .set rd k => asmCommand w (.set rd) (.imm k) (.reg 0)
  | .get .u ra => asmCommand w (.getu ra) (.reg 0) (.reg 0)
  | .get .s ra => asmCommand w (.gets ra) (.reg 0) (.reg 0)
  | .mov _ _ => none
  | .clr _ => none
  | .negs _ _ => none
  | .rdflags => none

/-- The assembler for an instance of container width `w` (30_encoding.md R63 to R65): the command a line stands
for, or nothing where an immediate does not fit the port. -/
def Asm.assemble (w : Nat) (a : Asm) : Option (HostEvent w) := a.expand.assembleCore w

end Sys2Proof.Machine
end

