-- ==== Sys2Proof/Safety.lean ====
section
/-! DEFINITION. The terms the claims use, written from the rules and not from the meanings: what a run is and when it
is good (70_reset_and_hazards.md R182), the invariant of the state (10_state.md R33), when a command faults and with
which cause (60_exceptions.md R151 to R158), and the state after a command that completes, written out in full. -/

namespace Sys2Proof.Machine

/-! ## Runs -/

/-- No fault is recorded (70_reset_and_hazards.md R182). -/
def State.good (s : State) : Prop := s.fault.f = false

/-- The state at the start of a run of the instance `c`: a reset, then these events presented in order
(70_reset_and_hazards.md R182). -/
def runStart (c : Width) (es : List (HostEvent (container c.bits))) : State :=
  (State.resetAt c).present es

/-- The end of a run: every presented event has been taken (70_reset_and_hazards.md R182). -/
def runEnd (c : Width) (es : List (HostEvent (container c.bits))) : Result :=
  Sys2Proof.core.run es.length (runStart c es)

/-- Whether the event is a command, which is answered, and not a reset, which is not. -/
def HostEvent.isCommand {w : Nat} : HostEvent w → Bool
  | .reset => false
  | .command _ _ _ => true

/-- The invariant of 10_state.md R33: `D` implies `V`, `F = 0` exactly when `CAUSE = 0`, and `CAUSE` is one of 0
to 4. -/
structure State.Inv (s : State) : Prop where
  dir_ovf : s.flags.d = true → s.flags.v = true
  fault_cause : s.fault.f = false ↔ s.fault.cause = 0#3
  cause_le : s.fault.cause.toNat ≤ 4

/-! ## Operands and faults, from the rules -/

/-- A value is in range for a signedness at width `n` (30_encoding.md R58). -/
abbrev InRange (sg : Sg) (n : Nat) (v : Int) : Prop := (limits sg n).min ≤ v ∧ v ≤ (limits sg n).max

/-- The value of the first operand (30_encoding.md R57): a register under the view, or the port `xi` at its full
width. -/
def State.xVal (s : State) (sg : Sg) : Source → Int
  | .reg r => val sg s.sreg[r]
  | .imm => val sg s.xi

/-- The value of the second operand (30_encoding.md R57). -/
def State.yVal (s : State) (sg : Sg) : Source → Int
  | .reg r => val sg s.sreg[r]
  | .imm => val sg s.yi

/-- No immediate the command uses is out of range (60_exceptions.md R151, R152). -/
def State.OperandsInRange (s : State) (sg : Sg) (x y : Source) : Prop :=
  (x = .imm → InRange sg s.bits (val sg s.xi)) ∧ (y = .imm → InRange sg s.bits (val sg s.yi))

/-- The range fault of two operands, x before y (60_exceptions.md R151, R152, R158). -/
def State.rangeFault (s : State) (sg : Sg) (x y : Source) : Option Cause :=
  if x = .imm ∧ ¬InRange sg s.bits (val sg s.xi) then some .xrange
  else if y = .imm ∧ ¬InRange sg s.bits (val sg s.yi) then some .yrange
  else none

/-- The fault of a division: a range fault, else a zero divisor (60_exceptions.md R153, R158). -/
def State.divFault (s : State) (sg : Sg) (x y : Source) : Option Cause :=
  match s.rangeFault sg x y with
  | some c => some c
  | none => if s.yVal sg y = 0 then some .divzero else none

/-- The fault of a wide multiply: equal destinations are illegal, before any operand is looked at
(30_encoding.md R60 item 4, 60_exceptions.md R158). -/
def State.wideFault (s : State) (sg : Sg) (rh rd : SReg) (x y : Source) : Option Cause :=
  if rh = rd then some .illegal else s.rangeFault sg x y

/-- The fault a command raises in a state that has none, or nothing (60_exceptions.md R155). -/
def State.causeOf (s : State) : Instr → Option Cause
  | .addu _ x y => s.rangeFault .u x y
  | .adds _ x y => s.rangeFault .s x y
  | .subu _ x y => s.rangeFault .u x y
  | .subs _ x y => s.rangeFault .s x y
  | .mulu _ x y => s.rangeFault .u x y
  | .muls _ x y => s.rangeFault .s x y
  | .divu _ x y => s.divFault .u x y
  | .divs _ x y => s.divFault .s x y
  | .wmulu rh rd x y => s.wideFault .u rh rd x y
  | .wmuls rh rd x y => s.wideFault .s rh rd x y
  | .set _ => none
  | .getu _ => none
  | .gets _ => none

end Sys2Proof.Machine

namespace Sys2Proof

/-- The operation, signedness and operands of the eight arithmetic commands; nothing for the others. -/
def Instr.arith? : Instr → Option (Machine.ArithOp × Sg × Source × Source)
  | .addu _ x y => some (.add, .u, x, y)
  | .adds _ x y => some (.add, .s, x, y)
  | .subu _ x y => some (.sub, .u, x, y)
  | .subs _ x y => some (.sub, .s, x, y)
  | .mulu _ x y => some (.mul, .u, x, y)
  | .muls _ x y => some (.mul, .s, x, y)
  | .divu _ x y => some (.div, .u, x, y)
  | .divs _ x y => some (.div, .s, x, y)
  | .wmulu _ _ _ _ => none
  | .wmuls _ _ _ _ => none
  | .set _ => none
  | .getu _ => none
  | .gets _ => none

/-- The registers a command writes when it completes (10_state.md R22). -/
def Instr.writes : Instr → List SReg
  | .addu rd _ _ => [rd]
  | .adds rd _ _ => [rd]
  | .subu rd _ _ => [rd]
  | .subs rd _ _ => [rd]
  | .mulu rd _ _ => [rd]
  | .muls rd _ _ => [rd]
  | .divu rd _ _ => [rd]
  | .divs rd _ _ => [rd]
  | .wmulu rh rd _ _ => [rd, rh]
  | .wmuls rh rd _ _ => [rd, rh]
  | .set rd => [rd]
  | .getu _ => []
  | .gets _ => []

/-- Whether the command uses its first immediate (30_encoding.md R67). -/
def Instr.usesXi : Instr → Bool
  | .addu _ x _ => x == .imm
  | .adds _ x _ => x == .imm
  | .subu _ x _ => x == .imm
  | .subs _ x _ => x == .imm
  | .mulu _ x _ => x == .imm
  | .muls _ x _ => x == .imm
  | .divu _ x _ => x == .imm
  | .divs _ x _ => x == .imm
  | .wmulu _ _ x _ => x == .imm
  | .wmuls _ _ x _ => x == .imm
  | .set _ => true
  | .getu _ => false
  | .gets _ => false

/-- Whether the command uses its second immediate (30_encoding.md R67). -/
def Instr.usesYi : Instr → Bool
  | .addu _ _ y => y == .imm
  | .adds _ _ y => y == .imm
  | .subu _ _ y => y == .imm
  | .subs _ _ y => y == .imm
  | .mulu _ _ y => y == .imm
  | .muls _ _ y => y == .imm
  | .divu _ _ y => y == .imm
  | .divs _ _ y => y == .imm
  | .wmulu _ _ _ y => y == .imm
  | .wmuls _ _ _ y => y == .imm
  | .set _ => false
  | .getu _ => false
  | .gets _ => false

end Sys2Proof

namespace Sys2Proof.Machine

/-! ## The exact results (42_overflow_detector.md R113) -/

/-- The exact integer result of an operation: the sum, the difference, the product, or the quotient rounded toward
zero (44_mul_div.md R134, R139). -/
def exact (op : ArithOp) (x y : Int) : Int :=
  match op with
  | .add => x + y
  | .sub => x - y
  | .mul => x * y
  | .div => Int.tdiv x y

/-- The source's function for an operation and a signedness, where it is defined (30_encoding.md R66): only a
division by zero is not. -/
def sourceFunction (op : ArithOp) (sg : Sg) (n : Nat) (x y : Int) : Option Int :=
  match op, sg with
  | .add, .u => some (addu n x y)
  | .add, .s => some (adds n x y)
  | .sub, .u => some (subu n x y)
  | .sub, .s => some (subs n x y)
  | .mul, .u => some (mulu n x y)
  | .mul, .s => some (muls n x y)
  | .div, .u => divu n x y
  | .div, .s => divs n x y

/-! ## The state after a command, written out in full -/

/-- After a fault with cause `c` (60_exceptions.md R156): the latch and one response, nothing else. -/
def State.afterFault (s : State) (c : BitVec 3) : State :=
  { s with
    fault := ⟨true, c⟩
    responses := s.responses ++ [⟨0, 0, s.flags.v, s.flags.d, true, c⟩] }

/-- After an arithmetic command with result `res` and flags `v`, `d` (30_encoding.md R59): the destination, `FLAGS`
and one response, nothing else. -/
def State.afterArith (s : State) (sg : Sg) (rd : SReg) (res : Int) (v d : Bool) : State :=
  { s with
    sreg := s.sreg.set rd (trunc s.bits res)
    flags := ⟨v, d⟩
    responses := s.responses ++
      [⟨ext s.busWidth sg (trunc s.bits res), 0, v, d, s.fault.f, s.fault.cause⟩] }

/-- After a wide multiply with exact product `p` (41_wide_multiply.md R90, R97, R98): the low `N` bits in `rd`, the
next `N` bits in `rh`, and one response, nothing else. -/
def State.afterWide (s : State) (sg : Sg) (rh rd : SReg) (p : Int) : State :=
  { s with
    sreg := (s.sreg.set rd (trunc s.bits p)).set rh (trunc s.bits (p / 2 ^ s.bits))
    responses := s.responses ++
      [⟨ext s.busWidth sg (trunc s.bits p), ext s.busWidth sg (trunc s.bits (p / 2 ^ s.bits)),
        s.flags.v, s.flags.d, s.fault.f, s.fault.cause⟩] }

/-- After `SET` (40_foundation_scalar.md R81): the low `N` bits of `xi` in `rd` and one response, nothing else. -/
def State.afterSet (s : State) (rd : SReg) : State :=
  { s with
    sreg := s.sreg.set rd (s.xi.setWidth s.bits)
    responses := s.responses ++
      [⟨(s.xi.setWidth s.bits).setWidth s.busWidth, 0, s.flags.v, s.flags.d, s.fault.f, s.fault.cause⟩] }

/-- After a command that only answers `r` (40_foundation_scalar.md R82, R83; 60_exceptions.md R157): one response,
nothing else. -/
def State.afterAnswer (s : State) (r : BitVec s.busWidth) : State :=
  { s with
    responses := s.responses ++ [⟨r, 0, s.flags.v, s.flags.d, s.fault.f, s.fault.cause⟩] }

/-- The state after the host's next command is taken from its inputs: the immediates stand on the ports
(30_encoding.md R50). -/
def State.taking (s : State) (rest : List (HostEvent s.busWidth)) (xi yi : BitVec s.busWidth) : State :=
  { s with inputs := rest, xi := xi, yi := yi }

/-- The state with another pattern on the first immediate port; the pattern is cut to the port's width. -/
def State.putXi (s : State) (c : BitVec 64) : State := { s with xi := c.setWidth (container s.width.bits) }

/-- The state with another pattern on the second immediate port; the pattern is cut to the port's width. -/
def State.putYi (s : State) (c : BitVec 64) : State := { s with yi := c.setWidth (container s.width.bits) }

end Sys2Proof.Machine
end

