-- ==== Sys2Proof/Certificates/Slice0/Obligations.lean ====
section
/-! DEFINITION. The statements for the provers, from the numbered rules of spec/. The terms they use are those of
Sys2Proof/Safety.lean, which writes the states after a command out in full, so that each result statement is also its
frame. The hardware has no memory (20_memory.md R40), so no frame speaks of one. -/

open Sys2Proof Sys2Proof.Machine

/-! ## Encoding -/

/-- The words of the encoding examples of 30_encoding.md section 7 decode to the commands they stand for, and the
two illegal ones do not decode. -/
def Obligations.ExampleWordsDecode : Prop :=
  decode 0x0C01#16 = .ok (.adds 0 .imm .imm) ∧
  decode 0x0391#16 = .ok (.adds 1 (.reg 2) (.reg 3)) ∧
  decode 0x08F2#16 = .ok (.subu 3 (.reg 3) .imm) ∧
  decode 0x0527#16 = .ok (.divs 2 .imm (.reg 1)) ∧
  decode 0x1389#16 = .ok (.wmuls 1 0 (.reg 2) (.reg 3)) ∧
  decode 0x042A#16 = .ok (.set 2) ∧
  decode 0x00CD#16 = .ok (.gets 3) ∧
  decode 0x000B#16 = .error .reservedOpcode ∧
  decode 0x0248#16 = .error .sameDestinations

/-- Decoding the word of a well-formed command gives the command back, for every command and every operand. -/
def Obligations.DecodeOfEncodeIsIdentity : Prop :=
  ∀ i : Instr, i.wellFormed = true → decode (encode i) = .ok i

/-- A word that decodes is the word of the command it decodes to, and that command is well formed: every command
has exactly one encoding in each operand form (30_encoding.md R55, R60). -/
def Obligations.LegalWordIsTheEncoding : Prop :=
  ∀ (cw : CmdWord) (i : Instr), decode cw = .ok i → encode i = cw ∧ i.wellFormed = true

/-- A word is illegal exactly when one of the eight items of 30_encoding.md R60 holds, the fields read off the word
as numbers by 30_encoding.md R53. -/
def Obligations.IllegalWordsAreTheEightItems : Prop :=
  ∀ cw : CmdWord,
    let op := cw.toNat % 16
    let rd := cw.toNat / 2 ^ 4 % 4
    let ra := cw.toNat / 2 ^ 6 % 4
    let rb := cw.toNat / 2 ^ 8 % 4
    let ia := cw.toNat / 2 ^ 10 % 2
    let ib := cw.toNat / 2 ^ 11 % 2
    let rh := cw.toNat / 2 ^ 12 % 4
    let z := cw.toNat / 2 ^ 14 % 4
    let formatA := op ≤ 7
    let formatM := op = 8 ∨ op = 9
    let formatC := op = 10
    let formatG := op = 12 ∨ op = 13
    (∃ e, decode cw = .error e) ↔
      (op = 11 ∨ op = 14 ∨ op = 15) ∨
      z ≠ 0 ∨
      ((formatA ∨ formatC ∨ formatG) ∧ rh ≠ 0) ∨
      (formatM ∧ rh = rd) ∨
      ((formatA ∨ formatM) ∧ ia = 1 ∧ ra ≠ 0) ∨
      ((formatA ∨ formatM) ∧ ib = 1 ∧ rb ≠ 0) ∨
      (formatC ∧ (ia ≠ 1 ∨ ib ≠ 0 ∨ ra ≠ 0 ∨ rb ≠ 0)) ∨
      (formatG ∧ (rd ≠ 0 ∨ rb ≠ 0 ∨ ia ≠ 0 ∨ ib ≠ 0))

/-! ## The pure functions, at every width 4 to 64 -/

/-- The constants of the Width/Limits Foundation (40_foundation_scalar.md R70 to R73): the container is the smallest
of the four native widths that holds `N` bits, the two ranges, `mask(0) = 0`, and the pattern of the signed minimum
is that of the signed maximum plus one. -/
def Obligations.WidthAndLimits : Prop :=
  mask 0 = 0 ∧
  ∀ c : Width,
    (container c.bits ∈ [8, 16, 32, 64] ∧ c.bits ≤ container c.bits ∧
      ∀ w ∈ [8, 16, 32, 64], c.bits ≤ w → container c.bits ≤ w) ∧
    (∀ m i : Nat, c.bits ≤ m → i < m → (maskPattern m c.bits).getLsbD i = decide (i < c.bits)) ∧
    ulimits c.bits = ⟨0, 2 ^ c.bits - 1⟩ ∧
    slimits c.bits = ⟨-(2 ^ (c.bits - 1)), 2 ^ (c.bits - 1) - 1⟩ ∧
    trunc c.bits (slimits c.bits).min = trunc c.bits (slimits c.bits).max + 1

/-- The unsigned sum and difference: the source's container formula (43_add_sub.md R120, R124), and its exact
form. -/
def Obligations.UnsignedSumAndDifferenceExact : Prop :=
  ∀ (c : Width) (x y : Int), InRange .u c.bits x → InRange .u c.bits y →
    (let res := trunc (container c.bits) (x + y)
     addu c.bits x y =
       (if uval res < x ∨ uval res > mask c.bits then (mask c.bits : Int)
        else uval (res &&& maskPattern (container c.bits) c.bits))) ∧
    addu c.bits x y = min (x + y) (2 ^ c.bits - 1) ∧
    (let res := trunc (container c.bits) (x - y)
     subu c.bits x y =
       (if uval res > x then 0 else uval (res &&& maskPattern (container c.bits) c.bits))) ∧
    subu c.bits x y = max (x - y) 0

/-- The signed sum and difference: the source's sign rule over the unsigned `N`-bit domain (43_add_sub.md R122,
R126), and its exact form. -/
def Obligations.SignedSumAndDifferenceExact : Prop :=
  ∀ (c : Width) (x y : Int), InRange .s c.bits x → InRange .s c.bits y →
    (let ux := trunc c.bits x
     let uy := trunc c.bits y
     adds c.bits x y =
       sval (if ux.msb = uy.msb ∧ (ux + uy).msb ≠ ux.msb then boundS c.bits ux.msb else ux + uy) ∧
     subs c.bits x y =
       sval (if ux.msb ≠ uy.msb ∧ (ux - uy).msb = uy.msb then boundS c.bits ux.msb else ux - uy)) ∧
    adds c.bits x y = clamp (x + y) (slimits c.bits).min (slimits c.bits).max ∧
    subs c.bits x y = clamp (x - y) (slimits c.bits).min (slimits c.bits).max

/-- The products: the source's formula over the halves of the wide product (44_mul_div.md R130, R132), and its exact
form. -/
def Obligations.ProductsExact : Prop :=
  (∀ (c : Width) (x y : Int), InRange .u c.bits x → InRange .u c.bits y →
    mulu c.bits x y =
      (if (wmul c.bits x y).hi ≠ 0 then (mask c.bits : Int) else uval (wmul c.bits x y).lo) ∧
    mulu c.bits x y = min (x * y) (2 ^ c.bits - 1)) ∧
  (∀ (c : Width) (x y : Int), InRange .s c.bits x → InRange .s c.bits y →
    (let p := wmul c.bits x y
     muls c.bits x y =
       sval (if p.hi ≠ p.lo.sshiftRight (c.bits - 1)
        then boundS c.bits ((trunc c.bits x).msb ^^ (trunc c.bits y).msb) else p.lo)) ∧
    muls c.bits x y = clamp (x * y) (slimits c.bits).min (slimits c.bits).max)

/-- The quotients (44_mul_div.md R134, R136). Rounding toward zero of an inexact signed quotient is the spec's
decision D10 (44_mul_div.md R139, log 7). -/
def Obligations.QuotientsExact : Prop :=
  (∀ (c : Width) (x y : Int), InRange .u c.bits x → InRange .u c.bits y → y ≠ 0 →
    ∃ q : Int, divu c.bits x y = some q ∧ q * y ≤ x ∧ x < (q + 1) * y ∧ 0 ≤ q ∧ q ≤ x) ∧
  (∀ (c : Width) (x y : Int), InRange .s c.bits x → InRange .s c.bits y → y ≠ 0 →
    divs c.bits x y =
      some (if x = (slimits c.bits).min ∧ y = -1 then (slimits c.bits).max else Int.tdiv x y) ∧
    divs c.bits x y =
      some (clamp (Int.tdiv x y) (slimits c.bits).min (slimits c.bits).max)) ∧
  (∀ (n : Nat) (x : Int), divu n x 0 = none ∧ divs n x 0 = none)

/-- The signed overflow predicates hold exactly when the exact result is out of range (42_overflow_detector.md R105
to R108). -/
def Obligations.SignedOverflowPredicatesExact : Prop :=
  ∀ (c : Width) (x y : Int), InRange .s c.bits x → InRange .s c.bits y →
    (ovfAdds c.bits x y = true ↔ ¬InRange .s c.bits (x + y)) ∧
    (ovfSubs c.bits x y = true ↔ ¬InRange .s c.bits (x - y)) ∧
    (ovfMuls c.bits x y = true ↔ ¬InRange .s c.bits (x * y)) ∧
    (ovfDivs c.bits x y = true ↔ y = -1 ∧ x = (slimits c.bits).min) ∧
    (let ux := trunc c.bits x
     let uy := trunc c.bits y
     let p := wmul c.bits x y
     (ovfAdds c.bits x y = true ↔ ux.msb = uy.msb ∧ (ux + uy).msb ≠ ux.msb) ∧
     (ovfSubs c.bits x y = true ↔ ux.msb ≠ uy.msb ∧ (ux - uy).msb = uy.msb) ∧
     (ovfMuls c.bits x y = true ↔ p.hi ≠ p.lo.sshiftRight (c.bits - 1)) ∧
     (ovfDivs c.bits x y = true ↔ (uy + 1) ||| (ux - trunc c.bits (slimits c.bits).min) = 0))

/-- The bit-trick forms of the two sign rules agree with the rules (42_overflow_detector.md R114). -/
def Obligations.SignRuleBitTricksAgree : Prop :=
  ∀ (c : Width) (x y : Int),
    ovfAddsTrick c.bits x y = ovfAdds c.bits x y ∧ ovfSubsTrick c.bits x y = ovfSubs c.bits x y

/-- Saturation correctness (42_overflow_detector.md R113): for every operation and signedness the function returns
the exact result clamped to the range, `ovf` says whether it was out of range, `dir` whether it was below, and when
`ovf` is 1 the boundary value is the clamped result. The exact quotient is that of 44_mul_div.md R134 and R136, the
signed one rounded toward zero (R139, decision D10, log 7). -/
def Obligations.SaturationIsClampOfExact : Prop :=
  ∀ (c : Width) (op : ArithOp) (sg : Sg) (x y : Int),
    InRange sg c.bits x → InRange sg c.bits y → (op = .div → y ≠ 0) →
    let l := limits sg c.bits
    let e := exact op x y
    let d := detect op sg c.bits x y
    sourceFunction op sg c.bits x y = some (clamp e l.min l.max) ∧
    d.ovf = decide (e < l.min ∨ l.max < e) ∧
    d.dir = decide (e < l.min) ∧
    (d.ovf = true → d.bound = some (trunc c.bits (clamp e l.min l.max)))

/-- Range closure (42_overflow_detector.md R115): every result lies within the limits, so truncating it to `N` bits
for the destination loses nothing. -/
def Obligations.ResultsStayInRange : Prop :=
  ∀ (c : Width) (op : ArithOp) (sg : Sg) (x y q : Int),
    InRange sg c.bits x → InRange sg c.bits y → sourceFunction op sg c.bits x y = some q →
    InRange sg c.bits q ∧ val sg (trunc c.bits q) = q

/-- Commutativity of add and multiply, and the identity elements of all four operations (43_add_sub.md R128,
44_mul_div.md R140). -/
def Obligations.CommutativityAndIdentities : Prop :=
  ∀ (c : Width) (sg : Sg) (x y : Int), InRange sg c.bits x → InRange sg c.bits y →
    sourceFunction .add sg c.bits x y = sourceFunction .add sg c.bits y x ∧
    sourceFunction .mul sg c.bits x y = sourceFunction .mul sg c.bits y x ∧
    sourceFunction .add sg c.bits x 0 = some x ∧
    sourceFunction .sub sg c.bits x 0 = some x ∧
    sourceFunction .mul sg c.bits x 1 = some x ∧
    sourceFunction .div sg c.bits x 1 = some x

/-- The wide multiply is exact (41_wide_multiply.md R90): the two halves are the halves of the `2N`-bit product, and
read together they are the exact product; the low half is read unsigned under both views (R91). -/
def Obligations.WideProductExact : Prop :=
  ∀ (c : Width) (sg : Sg) (x y : Int), InRange sg c.bits x → InRange sg c.bits y →
    let p := wmul c.bits x y
    p.hi = (trunc (2 * c.bits) (x * y)).extractLsb' c.bits c.bits ∧
    p.lo = (trunc (2 * c.bits) (x * y)).extractLsb' 0 c.bits ∧
    val sg (p.hi ++ p.lo) = x * y ∧
    val sg p.hi * 2 ^ c.bits + uval p.lo = x * y

/-- The half-word algorithm (41_wide_multiply.md R92 to R96) is a correct wide multiply unit (R99): the core at the
container width gives the exact product of two container patterns with no arithmetic wider than `W` bits, and with
the post-step it gives the halves of the contract R90. The accumulation of R94 and R95 is the spec's own, written from
general knowledge (93_implementation_defined.md G2) and informative (92_eei_decisions.md D26): one correct realisation,
not the source's. -/
def Obligations.HalfWordAlgorithmMeetsContract : Prop :=
  (∀ (c : Width) (sg : Sg) (X Y : BitVec (container c.bits)),
    let p := wideCore sg (container c.bits) X Y
    val sg (p.hi ++ p.lo) = val sg X * val sg Y) ∧
  (∀ (c : Width) (sg : Sg) (x y : Int), InRange sg c.bits x → InRange sg c.bits y →
    wmulByHalves sg c.bits x y = wmul c.bits x y)

/-- Round trip of a scalar register (40_foundation_scalar.md R79): constructing from a container pattern and reading
it back gives the pattern itself exactly when the pattern is in range for the view. -/
def Obligations.ScalarRoundTripIffInRange : Prop :=
  ∀ (c : Width) (sg : Sg) (p : BitVec (container c.bits)),
    (scalarRead (container c.bits) sg (scalarConstruct c.bits p) = p ↔ inrange sg c.bits p = true) ∧
    val sg (scalarRead (container c.bits) sg (scalarConstruct c.bits p)) = val sg (scalarConstruct c.bits p)

/-- The arithmetic law of the scalar (40_foundation_scalar.md R80): arithmetic on the values read under any view,
exact or modulo `2^W`, stored back, is `N`-bit wrapping arithmetic, and the three shifts likewise. -/
def Obligations.ScalarArithmeticIsNBit : Prop :=
  ∀ (c : Width) (sg sg' : Sg) (a b : BitVec c.bits),
    trunc c.bits (val sg a + val sg' b) = a + b ∧
    trunc c.bits (val sg a - val sg' b) = a - b ∧
    trunc c.bits (val sg a * val sg' b) = a * b ∧
    scalarConstruct c.bits (trunc (container c.bits) (val sg a + val sg' b)) = a + b ∧
    scalarConstruct c.bits (trunc (container c.bits) (val sg a - val sg' b)) = a - b ∧
    scalarConstruct c.bits (trunc (container c.bits) (val sg a * val sg' b)) = a * b ∧
    ∀ k : Nat, k < c.bits →
      trunc c.bits (val sg a * 2 ^ k) = a <<< k ∧
      trunc c.bits (floorDiv (uval a) (2 ^ k)) = a >>> k ∧
      trunc c.bits (floorDiv (sval a) (2 ^ k)) = a.sshiftRight k

/-- The range check of an immediate as integers and as bits (30_encoding.md R58): unsigned, bits `W-1..N` are all 0;
signed, bits `W-1..N-1` are all equal; when `N = W` every pattern is in range. -/
def Obligations.RangeCheckIsTheBitPattern : Prop :=
  ∀ (c : Width) (p : BitVec (container c.bits)),
    (inrange .u c.bits p = true ↔ uval p ≤ 2 ^ c.bits - 1) ∧
    (inrange .u c.bits p = true ↔
      ∀ i, c.bits ≤ i → i < container c.bits → p.getLsbD i = false) ∧
    (inrange .s c.bits p = true ↔ -(2 ^ (c.bits - 1)) ≤ sval p ∧ sval p ≤ 2 ^ (c.bits - 1) - 1) ∧
    (inrange .s c.bits p = true ↔
      ∀ i, c.bits - 1 ≤ i → i < container c.bits → p.getLsbD i = p.getLsbD (c.bits - 1)) ∧
    (c.bits = container c.bits → inrange .u c.bits p = true ∧ inrange .s c.bits p = true)

/-- A value read from a register is always in range for its view (10_state.md R21). -/
def Obligations.RegisterValueIsInRange : Prop :=
  ∀ (s : State) (sg : Sg) (i : SReg), InRange sg s.bits (val sg s.sreg[i])

/-! ## The step and reset -/

/-- A step runs the decoded command: when the host's next event is a command whose word decodes to `i`, the step is
the meaning of `i` with the command taken and its immediates on the ports (30_encoding.md R50, R62). -/
def Obligations.StepRunsTheDecodedCommand : Prop :=
  ∀ (s : State) (cw : CmdWord) (xi yi : BitVec s.busWidth) (rest : List (HostEvent s.busWidth)) (i : Instr),
    s.inputs = .command cw xi yi :: rest → decode cw = .ok i → step s = exec i (s.taking rest xi yi)

/-- An illegal word raises ILLEGAL, whatever its immediates (30_encoding.md R62 step 2, 60_exceptions.md R154). -/
def Obligations.IllegalWordRaisesIllegal : Prop :=
  ∀ (s : State) (cw : CmdWord) (xi yi : BitVec s.busWidth) (rest : List (HostEvent s.busWidth)) (e : Illegal),
    s.inputs = .command cw xi yi :: rest → decode cw = .error e → s.fault.f = false →
    step s = .next ((s.taking rest xi yi).afterFault 1#3)

/-- The reset state (70_reset_and_hazards.md R171), for every instance: the four registers, `FLAGS` and `FAULT` are
zero. -/
def Obligations.ResetStateIsAllZero : Prop :=
  ∀ c : Width,
    (∀ i : SReg, (State.resetAt c).sreg[i] = 0#c.bits) ∧
    (State.resetAt c).flags = ⟨false, false⟩ ∧ (State.resetAt c).fault = ⟨false, 0#3⟩

/-- The reset event puts the whole architectural state into the reset state, from any state, a faulted one too
(70_reset_and_hazards.md R170). That what the host presents next, the ports and the responses already returned stay
is the model's choice: they are the model's own fields (log 4, log 16). -/
def Obligations.ResetEventZeroesTheBlock : Prop :=
  ∀ (s : State) (rest : List (HostEvent s.busWidth)), s.inputs = .reset :: rest →
    step s = .next { s with
      sreg := Vector.replicate 4 0#s.width.bits
      flags := ⟨false, false⟩
      fault := ⟨false, 0#3⟩
      inputs := rest }

/-- Every command presented, legal or not, faulted or not, is answered by exactly one response whose flag and fault
fields are copies of the state after it; the data are zero when the command faults and when it is presented in the
faulted state (30_encoding.md R51, R52). -/
def Obligations.EveryCommandIsAnsweredOnce : Prop :=
  ∀ (s : State) (cw : CmdWord) (xi yi : BitVec s.busWidth) (rest : List (HostEvent s.busWidth)),
    s.inputs = .command cw xi yi :: rest →
    ∃ (regs : Vector (BitVec s.width.bits) 4) (flags : Flags) (fault : FaultLatch) (r h : BitVec s.busWidth),
      step s = .next { s with
        sreg := regs
        flags := flags
        fault := fault
        xi := xi
        yi := yi
        inputs := rest
        responses := s.responses ++ [⟨r, h, flags.v, flags.d, fault.f, fault.cause⟩] } ∧
      ((fault.f = true ∨ s.fault.f = true) → r = 0 ∧ h = 0)

/-- What a command may write (10_state.md R22): every command completes or faults with a next state in which only the
registers of `Instr.writes`, `FLAGS`, `FAULT` and the responses may differ; a command that faults, or that runs while
`FAULT.F = 1`, writes no register and no flag, and only commands of format A write `FLAGS`. -/
def Obligations.CommandsWriteOnlyTheirDestinations : Prop :=
  ∀ (i : Instr) (s : State),
    ∃ (regs : Vector (BitVec s.width.bits) 4) (flags : Flags) (fault : FaultLatch)
      (resps : List (Response s.busWidth)),
      exec i s = .next { s with sreg := regs, flags := flags, fault := fault, responses := resps } ∧
      (∀ j : SReg, j ∉ i.writes → regs[j] = s.sreg[j]) ∧
      (s.fault.f = true ∨ fault.f = true → regs = s.sreg ∧ flags = s.flags) ∧
      (i.arith? = none → flags = s.flags)

/-! ## What each command does -/

/-- ADDU and ADDS complete on operands in range: the exact sum clamped, `V` when it was clamped, `D` when to the
minimum (43_add_sub.md R121, R123). The operands are read in the state before the command, so the destination may be
a source (70_reset_and_hazards.md R176). -/
def Obligations.AdderCommandsComplete : Prop :=
  (∀ (s : State) (rd : SReg) (x y : Source), s.fault.f = false → s.OperandsInRange .u x y →
    let e := s.xVal .u x + s.yVal .u y
    exec (.addu rd x y) s =
      .next (s.afterArith .u rd (min e (2 ^ s.bits - 1)) (decide (e > 2 ^ s.bits - 1)) false)) ∧
  (∀ (s : State) (rd : SReg) (x y : Source), s.fault.f = false → s.OperandsInRange .s x y →
    let e := s.xVal .s x + s.yVal .s y
    let q := clamp e (-(2 ^ (s.bits - 1))) (2 ^ (s.bits - 1) - 1)
    exec (.adds rd x y) s =
      .next (s.afterArith .s rd q (decide (q ≠ e)) (decide (e < -(2 ^ (s.bits - 1))))))

/-- SUBU and SUBS complete on operands in range: x minus y clamped, with `V` and `D` (43_add_sub.md R125, R127). -/
def Obligations.SubtractorCommandsComplete : Prop :=
  (∀ (s : State) (rd : SReg) (x y : Source), s.fault.f = false → s.OperandsInRange .u x y →
    let vx := s.xVal .u x
    let vy := s.yVal .u y
    exec (.subu rd x y) s =
      .next (s.afterArith .u rd (max (vx - vy) 0) (decide (vx < vy)) (decide (vx < vy)))) ∧
  (∀ (s : State) (rd : SReg) (x y : Source), s.fault.f = false → s.OperandsInRange .s x y →
    let e := s.xVal .s x - s.yVal .s y
    let q := clamp e (-(2 ^ (s.bits - 1))) (2 ^ (s.bits - 1) - 1)
    exec (.subs rd x y) s =
      .next (s.afterArith .s rd q (decide (q ≠ e)) (decide (e < -(2 ^ (s.bits - 1))))))

/-- MULU and MULS complete on operands in range: the exact product clamped, with `V` and `D`
(44_mul_div.md R131, R133). -/
def Obligations.MultiplierCommandsComplete : Prop :=
  (∀ (s : State) (rd : SReg) (x y : Source), s.fault.f = false → s.OperandsInRange .u x y →
    let e := s.xVal .u x * s.yVal .u y
    exec (.mulu rd x y) s =
      .next (s.afterArith .u rd (min e (2 ^ s.bits - 1)) (decide (e > 2 ^ s.bits - 1)) false)) ∧
  (∀ (s : State) (rd : SReg) (x y : Source), s.fault.f = false → s.OperandsInRange .s x y →
    let e := s.xVal .s x * s.yVal .s y
    let q := clamp e (-(2 ^ (s.bits - 1))) (2 ^ (s.bits - 1) - 1)
    exec (.muls rd x y) s =
      .next (s.afterArith .s rd q (decide (q ≠ e)) (decide (e < -(2 ^ (s.bits - 1))))))

/-- DIVU and DIVS complete on operands in range with a divisor that is not zero (44_mul_div.md R135, R137): the
quotient, which saturates only for the minimum divided by -1; both write `FLAGS`. The rounding of an inexact signed
quotient is the spec's decision D10 (44_mul_div.md R139, log 7). -/
def Obligations.DividerCommandsComplete : Prop :=
  (∀ (s : State) (rd : SReg) (x y : Source), s.fault.f = false → s.OperandsInRange .u x y →
    s.yVal .u y ≠ 0 →
    exec (.divu rd x y) s = .next (s.afterArith .u rd (s.xVal .u x / s.yVal .u y) false false)) ∧
  (∀ (s : State) (rd : SReg) (x y : Source), s.fault.f = false → s.OperandsInRange .s x y →
    s.yVal .s y ≠ 0 →
    exec (.divs rd x y) s =
      .next (if s.xVal .s x = -(2 ^ (s.bits - 1)) ∧ s.yVal .s y = -1
        then s.afterArith .s rd (2 ^ (s.bits - 1) - 1) true false
        else s.afterArith .s rd (Int.tdiv (s.xVal .s x) (s.yVal .s y)) false false))

/-- WMULU and WMULS complete on operands in range with two different destinations: both halves of the exact product
are written together, `FLAGS` stays (41_wide_multiply.md R97, R98). -/
def Obligations.WideMultiplyCommandsComplete : Prop :=
  ∀ (s : State) (rh rd : SReg) (x y : Source), s.fault.f = false → rh ≠ rd →
    (s.OperandsInRange .u x y →
      exec (.wmulu rh rd x y) s = .next (s.afterWide .u rh rd (s.xVal .u x * s.yVal .u y))) ∧
    (s.OperandsInRange .s x y →
      exec (.wmuls rh rd x y) s = .next (s.afterWide .s rh rd (s.xVal .s x * s.yVal .s y)))

/-- SET, GETU and GETS always complete in a state that is not faulted (40_foundation_scalar.md R81 to R83): SET
stores the low `N` bits of `xi` unchecked and answers them zero-extended, the reads answer the register under their
view and change nothing. -/
def Obligations.ScalarCommandsComplete : Prop :=
  ∀ (s : State) (r : SReg), s.fault.f = false →
    exec (.set r) s = .next (s.afterSet r) ∧
    exec (.getu r) s = .next (s.afterAnswer (s.sreg[r].setWidth s.busWidth)) ∧
    exec (.gets r) s = .next (s.afterAnswer (s.sreg[r].signExtend s.busWidth))

/-- `FLAGS` follows the detector: an arithmetic command that completes writes `V <- ovf` (10_state.md R25) and with it
`D <- dir` (10_state.md R26, 42_overflow_detector.md R112); every other command, a command that faults, an illegal word
too, and any command while `FAULT.F = 1` leave `FLAGS` unchanged. Reset, which is no command, clears `FLAGS`
(`Obligations.ResetEventZeroesTheBlock`). -/
def Obligations.FlagsFollowTheDetector : Prop :=
  (∀ (s t : State) (cw : CmdWord) (xi yi : BitVec s.busWidth) (rest : List (HostEvent s.busWidth)) (e : Illegal),
    s.inputs = .command cw xi yi :: rest → decode cw = .error e → step s = .next t → t.flags = s.flags) ∧
  ∀ (i : Instr) (s t : State), exec i s = .next t →
    t.flags =
      match i.arith? with
      | none => s.flags
      | some (op, sg, x, y) =>
        if s.fault.f = true ∨ t.fault.f = true then s.flags
        else
          ⟨(detect op sg s.bits (s.xVal sg x) (s.yVal sg y)).ovf,
            (detect op sg s.bits (s.xVal sg x) (s.yVal sg y)).dir⟩

/-- An immediate the command does not use is ignored (30_encoding.md R67): any pattern on its port gives the same
next state, but for the port itself. -/
def Obligations.UnusedImmediatesAreIgnored : Prop :=
  ∀ (i : Instr) (s t : State) (c : BitVec 64), exec i s = .next t →
    (i.usesXi = false → exec i (s.putXi c) = .next (t.putXi c)) ∧
    (i.usesYi = false → exec i (s.putYi c) = .next (t.putYi c))

/-! ## Faults -/

/-- In a state that is not faulted a command faults exactly when a rule says so, with the first cause in the order
ILLEGAL, XRANGE, YRANGE, DIVZERO; otherwise `FAULT` is left alone, overflow or not
(60_exceptions.md R151 to R155, R158, R161). -/
def Obligations.CommandsFaultByPriority : Prop :=
  (Cause.code .illegal = 1#3 ∧ Cause.code .xrange = 2#3 ∧ Cause.code .yrange = 3#3 ∧
    Cause.code .divzero = 4#3) ∧
  ∀ (i : Instr) (s : State), s.fault.f = false →
    match s.causeOf i with
    | some c => exec i s = .next (s.afterFault c.code)
    | none => ∃ t, exec i s = .next t ∧ t.fault = s.fault

/-- Fault entry is precise (60_exceptions.md R156): whenever a step of a state that is not faulted ends with
`FAULT.F = 1`, it has set the latch to one of the four causes, answered zero data, and changed nothing else. -/
def Obligations.FaultEntryIsPrecise : Prop :=
  ∀ (s t : State) (cw : CmdWord) (xi yi : BitVec s.busWidth) (rest : List (HostEvent s.busWidth)),
    s.inputs = .command cw xi yi :: rest → s.fault.f = false → step s = .next t → t.fault.f = true →
    ∃ c : Cause, t = (s.taking rest xi yi).afterFault c.code

/-- The faulted state (60_exceptions.md R157): every command, legal or not, changes nothing and gets the faulted
response with zero data. -/
def Obligations.FaultedStateIgnoresCommands : Prop :=
  ∀ (s : State) (cw : CmdWord) (xi yi : BitVec s.busWidth) (rest : List (HostEvent s.busWidth)),
    s.inputs = .command cw xi yi :: rest → s.fault.f = true →
    step s = .next ((s.taking rest xi yi).afterAnswer 0)

/-- When the host presents nothing the block does nothing (00_scope.md R9), and a run that is over with
`FAULT.F = 1` is a fault outcome (60_exceptions.md R157). That the step then answers the idle state, or the fault
`runFaulted`, is the model's reading (log 5). -/
def Obligations.NothingPresentedIsIdleOrFaulted : Prop :=
  ∀ s : State, s.inputs = [] →
    (s.fault.f = false → step s = .next s) ∧
    (s.fault.f = true → step s = .fault (.runFaulted s.fault.cause))

/-- A fault is sticky until reset (60_exceptions.md R157, R160): over any number of commands with no reset among
them, a faulted block keeps its registers, `FLAGS` and `FAULT`, and answers every command with the faulted
response. -/
def Obligations.FaultIsStickyUntilReset : Prop :=
  ∀ s : State, s.fault.f = true → s.inputs.all HostEvent.isCommand = true →
    ∃ (xi yi : BitVec s.busWidth) (rs : List (Response s.busWidth)),
      Sys2Proof.core.run s.inputs.length s =
        (.next { s with xi := xi, yi := yi, inputs := [], responses := s.responses ++ rs } : Result) ∧
      rs.length = s.inputs.length ∧
      ∀ r ∈ rs, r = ⟨0, 0, s.flags.v, s.flags.d, true, s.fault.cause⟩

/-! ## Invariants and runs -/

/-- The invariant of 10_state.md R33 is kept by every step, from every state that has it. -/
def Obligations.EveryStepKeepsFlagAndFaultInvariant : Prop :=
  ∀ s t : State, s.Inv → step s = .next t → t.Inv

/-- The invariant of 10_state.md R33 holds at reset, for every instance. -/
def Obligations.ResetHasFlagAndFaultInvariant : Prop :=
  State.reset.Inv ∧ ∀ c : Width, (State.resetAt c).Inv

/-- The width of an instance is no run-time state (00_scope.md R5, 10_state.md R32): no step changes it. That State
holds it is the model's choice (log 1). -/
def Obligations.NoStepChangesTheWidth : Prop :=
  ∀ s t : State, step s = .next t → t.width = s.width

/-- A run takes every event and answers every command, whatever faults occur on the way, and it is good or faulted
at its end by `FAULT.F` (70_reset_and_hazards.md R182, 60_exceptions.md R157). That the step after the last event is
an idle step or a fault outcome is the model's reading of R157 and R182 (log 5). That the responses are counted over
the whole run, and that a reset among the events is not answered and takes no earlier response back, is the model's
choice (log 4). -/
def Obligations.RunAnswersEveryCommand : Prop :=
  ∀ (c : Width) (es : List (HostEvent (container c.bits))),
    ∃ t : State, runEnd c es = .next t ∧ t.width = c ∧ t.inputs.length = 0 ∧
      t.responses.length = es.countP HostEvent.isCommand ∧ t.Inv ∧
      (t.good → step t = .next t) ∧
      (¬t.good → step t = .fault (.runFaulted t.fault.cause))

/-! ## The assembler's view -/

/-- A source call as a command (30_encoding.md R66): assembling `OP rd, #x, #y` with operands in range and running
it from reset returns the source's function of `x` and `y` on the response bus. -/
def Obligations.AssembledCallReturnsSourceFunction : Prop :=
  ∀ (c : Width) (op : ArithOp) (sg : Sg) (rd : SReg) (x y q : Int),
    InRange sg c.bits x → InRange sg c.bits y → sourceFunction op sg c.bits x y = some q →
    ∃ (e : HostEvent (container c.bits)) (t : State) (rsp : Response t.busWidth),
      (Asm.arith op sg rd (.imm x) (.imm y)).assemble (container c.bits) = some e ∧
      runEnd c [e] = .next t ∧ t.good ∧ t.responses = [rsp] ∧ val sg rsp.r = q

/-- The pseudo-instructions (30_encoding.md R65): MOV copies all `N` bits and clears `FLAGS`; CLR stores zero and
keeps `FLAGS`; NEGS is the saturating negation; RDFLAGS only answers. -/
def Obligations.PseudoInstructionsDoWhatTheySay : Prop :=
  ∀ (s : State) (rd ra : SReg) (rest : List (HostEvent s.busWidth)), s.fault.f = false →
    (∃ e, (Asm.mov rd ra).assemble s.busWidth = some e ∧
      step { s with inputs := e :: rest } =
        .next ((s.taking rest 0 0).afterArith .u rd (uval s.sreg[ra]) false false)) ∧
    (∃ e, (Asm.clr rd).assemble s.busWidth = some e ∧
      step { s with inputs := e :: rest } = .next ((s.taking rest 0 0).afterSet rd)) ∧
    (∃ e, (Asm.negs rd ra).assemble s.busWidth = some e ∧
      step { s with inputs := e :: rest } =
        .next (if sval s.sreg[ra] = -(2 ^ (s.bits - 1))
          then (s.taking rest 0 0).afterArith .s rd (2 ^ (s.bits - 1) - 1) true false
          else (s.taking rest 0 0).afterArith .s rd (-sval s.sreg[ra]) false false)) ∧
    (∃ e, Asm.rdflags.assemble s.busWidth = some e ∧
      step { s with inputs := e :: rest } =
        .next ((s.taking rest 0 0).afterAnswer (s.sreg[(0 : SReg)].setWidth s.busWidth)))

/-- A register written by SET reads under either view (10_state.md R21 to R23): a SET followed by a read of the same
register answers the low `N` bits of the immediate extended under the reader's view. The read of a register in any
state, whatever wrote it, is `Obligations.ScalarCommandsComplete`. -/
def Obligations.SetThenReadUnderEitherView : Prop :=
  ∀ (s : State) (rd : SReg) (xi yi xi' yi' : BitVec s.busWidth) (rest : List (HostEvent s.busWidth)) (sg : Sg),
    s.fault.f = false →
    s.inputs = .command (encode (.set rd)) xi yi ::
      .command (encode (match sg with | .u => .getu rd | .s => .gets rd)) xi' yi' :: rest →
    ∃ (t : State) (rsp : Response t.busWidth),
      Sys2Proof.core.run 2 s = (.next t : Result) ∧ t.responses.getLast? = some rsp ∧
      rsp.r.toNat = (ext s.busWidth sg (trunc s.bits (uval xi))).toNat

/-! ## The direction output -/

/-- The `dir` output (42_overflow_detector.md R112): it is 1 exactly when `ovf` is 1 and the boundary value returned is
the minimum of the range, and it is, operation by operation, what R112's table says. For operands in range the sign
bits of the patterns are the signs of the operands, which gives the forms of 10_state.md R26. -/
def Obligations.DirectionIsTheSideOfTheClamp : Prop :=
  ∀ (c : Width) (op : ArithOp) (sg : Sg) (x y : Int), InRange sg c.bits x → InRange sg c.bits y →
    let d := detect op sg c.bits x y
    let sx := (trunc c.bits x).msb
    let sy := (trunc c.bits y).msb
    (d.dir = true ↔ d.ovf = true ∧ d.bound = some (trunc c.bits (limits sg c.bits).min)) ∧
    (d.dir =
      match op, sg with
      | .add, .u => false
      | .sub, .u => d.ovf
      | .mul, .u => false
      | .div, .u => false
      | .add, .s => d.ovf && sx
      | .sub, .s => d.ovf && sx
      | .mul, .s => d.ovf && (sx ^^ sy)
      | .div, .s => false) ∧
    (sg = .s → sx = decide (x < 0) ∧ sy = decide (y < 0))
end

