-- ==== Sys2Proof/Laws/Foundation.lean ====
section
/-! SUPPORT. The small facts about conversions, limits and containers that later proofs cite instead of unfolding
them. -/

namespace Sys2Proof.Machine

variable {n w : Nat}

/-! ## Widths and limits -/

theorem width_bits_pos (c : Width) : 0 < c.bits := by have := c.four_le; omega

theorem mask_eq (n : Nat) : mask n = 2 ^ n - 1 := by cases n <;> rfl

theorem mask_cast (n : Nat) : (mask n : Int) = 2 ^ n - 1 := by
  have := Nat.one_le_two_pow (n := n)
  rw [mask_eq]; push_cast [Nat.cast_sub this]; rfl

@[simp] theorem ulimits_min (n : Nat) : (ulimits n).min = 0 := rfl
@[simp] theorem ulimits_max (n : Nat) : (ulimits n).max = 2 ^ n - 1 := mask_cast n
@[simp] theorem slimits_max (n : Nat) : (slimits n).max = 2 ^ (n - 1) - 1 := rfl
@[simp] theorem slimits_min (n : Nat) : (slimits n).min = -(2 ^ (n - 1)) := by
  show -((2 : Int) ^ (n - 1) - 1) - 1 = _; omega

@[simp] theorem limits_u (n : Nat) : limits .u n = ulimits n := rfl
@[simp] theorem limits_s (n : Nat) : limits .s n = slimits n := rfl

theorem container_cases (n : Nat) :
    container n = 8 ∨ container n = 16 ∨ container n = 32 ∨ container n = 64 := by
  unfold container; split_ifs <;> simp

theorem le_container (h : n ≤ 64) : n ≤ container n := by
  unfold container; split_ifs <;> omega

theorem width_le_container (c : Width) : c.bits ≤ container c.bits := le_container c.le_sixtyfour

theorem two_pow_pred (h : 0 < n) : (2 : Int) ^ n = 2 * 2 ^ (n - 1) := by
  obtain ⟨k, rfl⟩ : ∃ k, n = k + 1 := ⟨n - 1, by omega⟩
  simp [pow_succ]; ring

/-! ## Values of patterns -/

theorem uval_nonneg (b : BitVec n) : 0 ≤ uval b := Int.natCast_nonneg _

theorem uval_lt (b : BitVec n) : uval b < 2 ^ n := by
  have := b.isLt; unfold uval; exact_mod_cast this

theorem sval_ge (h : 0 < n) (b : BitVec n) : -(2 ^ (n - 1)) ≤ sval b := by
  have := BitVec.le_two_mul_toInt (x := b); have := two_pow_pred h; unfold sval; omega

theorem sval_lt (h : 0 < n) (b : BitVec n) : sval b < 2 ^ (n - 1) := by
  have := BitVec.two_mul_toInt_lt (x := b); have := two_pow_pred h; unfold sval; omega

theorem val_inRange (h : 0 < n) (sg : Sg) (b : BitVec n) : InRange sg n (val sg b) := by
  cases sg
  · exact ⟨uval_nonneg b, by have := uval_lt b; simp [val]; omega⟩
  · exact ⟨by have := sval_ge h b; simpa [val] using this, by have := sval_lt h b; simp [val]; omega⟩

/-! ## Truncation -/

theorem trunc_eq_iff (v u : Int) : trunc n v = trunc n u ↔ v % 2 ^ n = u % 2 ^ n := by
  have e : ∀ z : Int, ((trunc n z).toNat : Int) = z % 2 ^ n := fun z => by
    simp only [trunc, BitVec.toNat_ofInt]
    rw [Int.toNat_of_nonneg (Int.emod_nonneg _ (by positivity))]; norm_cast
  constructor
  · intro h; rw [← e v, ← e u, h]
  · intro h; apply BitVec.eq_of_toNat_eq; have := (e v).trans (h.trans (e u).symm); exact_mod_cast this

theorem uval_trunc_mod (v : Int) : uval (trunc n v) = v % 2 ^ n := by
  simp only [uval, trunc, BitVec.toNat_ofInt]
  rw [Int.toNat_of_nonneg (Int.emod_nonneg _ (by positivity))]; norm_cast

theorem uval_trunc {v : Int} (h0 : 0 ≤ v) (h1 : v < 2 ^ n) : uval (trunc n v) = v := by
  rw [uval_trunc_mod, Int.emod_eq_of_lt h0 h1]

theorem sval_trunc {v : Int} (h : 0 < n) (h0 : -(2 ^ (n - 1)) ≤ v) (h1 : v < 2 ^ (n - 1)) :
    sval (trunc n v) = v := by
  simp only [sval, trunc, BitVec.toInt_ofInt]
  have := two_pow_pred h
  apply Int.bmod_eq_of_le <;> push_cast <;> omega

theorem val_trunc {sg : Sg} {v : Int} (h : 0 < n) (hv : InRange sg n v) : val sg (trunc n v) = v := by
  cases sg
  · exact uval_trunc (by simpa using hv.1) (by have := hv.2; simp at this; omega)
  · exact sval_trunc h (by simpa using hv.1) (by have := hv.2; simp at this; omega)

@[simp] theorem trunc_uval (b : BitVec n) : trunc n (uval b) = b := by
  apply BitVec.eq_of_toNat_eq
  have := uval_trunc (uval_nonneg b) (uval_lt b)
  unfold uval at this ⊢; exact_mod_cast this

@[simp] theorem trunc_sval (b : BitVec n) : trunc n (sval b) = b := by
  simp [trunc, sval]

@[simp] theorem trunc_val (sg : Sg) (b : BitVec n) : trunc n (val sg b) = b := by
  cases sg
  · exact trunc_uval b
  · exact trunc_sval b

theorem trunc_add (u v : Int) : trunc n (u + v) = trunc n u + trunc n v := by
  simp [trunc, BitVec.ofInt_add]

theorem trunc_mul (u v : Int) : trunc n (u * v) = trunc n u * trunc n v := by
  simp [trunc, BitVec.ofInt_mul]

theorem trunc_sub (u v : Int) : trunc n (u - v) = trunc n u - trunc n v := by
  have h := trunc_add (n := n) (u - v) v
  rw [Int.sub_add_cancel] at h
  rw [h, BitVec.add_sub_cancel]

/-! ## Extension to the bus -/

theorem uval_zext (h : n ≤ w) (b : BitVec n) : uval (zext w b) = uval b := by
  have := b.isLt
  have := Nat.pow_le_pow_right (show 0 < 2 by decide) h
  simp only [uval, zext, BitVec.toNat_setWidth]; congr 1; apply Nat.mod_eq_of_lt; omega

theorem sval_sext (h : n ≤ w) (b : BitVec n) : sval (sext w b) = sval b :=
  BitVec.toInt_signExtend_of_le h

theorem val_ext (h : n ≤ w) (sg : Sg) (b : BitVec n) : val sg (ext w sg b) = val sg b := by
  cases sg
  · exact uval_zext h b
  · exact sval_sext h b

theorem ext_eq_trunc_val (h : n ≤ w) (sg : Sg) (b : BitVec n) : ext w sg b = trunc w (val sg b) := by
  rw [← val_ext h sg b, trunc_val]

/-! ## Integer operators -/

theorem clamp_of_inRange {v lo hi : Int} (h0 : lo ≤ v) (h1 : v ≤ hi) : clamp v lo hi = v := by
  unfold clamp; split_ifs <;> omega

theorem clamp_of_lt {v lo hi : Int} (h : v < lo) : clamp v lo hi = lo := if_pos h

theorem clamp_of_gt {v lo hi : Int} (h : hi < v) (hl : lo ≤ hi) : clamp v lo hi = hi := by
  unfold clamp; split_ifs <;> omega

/-- The spec's quotient rounded toward zero is the library's. -/
theorem tdiv_eq (a b : Int) : tdiv a b = Int.tdiv a b := by
  unfold tdiv floorDiv
  rw [Int.fdiv_eq_ediv_of_nonneg _ (Int.natCast_nonneg _)]
  rcases Int.natAbs_eq a with ha | ha <;> rcases Int.natAbs_eq b with hb | hb <;>
    generalize a.natAbs = m at * <;> generalize b.natAbs = k at * <;> subst ha <;> subst hb <;>
    rcases Nat.eq_zero_or_pos m with rfl | hm <;> rcases Nat.eq_zero_or_pos k with rfl | hk <;>
    simp_all [Int.sign_eq_one_of_pos, Int.tdiv_eq_ediv_of_nonneg, Int.neg_tdiv, Int.tdiv_neg]

theorem floorDiv_eq {a b : Int} (h : 0 ≤ b) : floorDiv a b = a / b :=
  Int.fdiv_eq_ediv_of_nonneg a h

end Sys2Proof.Machine
end

