-- ==== Sys2Proof/Laws/State.lean ====
section
/-! SUPPORT. One lemma per field per named update of the state, each true by rfl, so that no later proof unfolds a
record update. -/

namespace Sys2Proof.Machine

variable (s : State) (i j : SReg) (v d : Bool) (c : Cause)

/-! ## writeReg -/

@[simp] theorem writeReg_width (b : BitVec s.bits) : (s.writeReg i b).width = s.width := rfl
@[simp] theorem writeReg_sreg (b : BitVec s.bits) : (s.writeReg i b).sreg = s.sreg.set i b := rfl
@[simp] theorem writeReg_flags (b : BitVec s.bits) : (s.writeReg i b).flags = s.flags := rfl
@[simp] theorem writeReg_fault (b : BitVec s.bits) : (s.writeReg i b).fault = s.fault := rfl
@[simp] theorem writeReg_xi (b : BitVec s.bits) : (s.writeReg i b).xi = s.xi := rfl
@[simp] theorem writeReg_yi (b : BitVec s.bits) : (s.writeReg i b).yi = s.yi := rfl
@[simp] theorem writeReg_inputs (b : BitVec s.bits) : (s.writeReg i b).inputs = s.inputs := rfl
@[simp] theorem writeReg_responses (b : BitVec s.bits) : (s.writeReg i b).responses = s.responses := rfl

/-! ## setFlags -/

@[simp] theorem setFlags_width : (s.setFlags v d).width = s.width := rfl
@[simp] theorem setFlags_sreg : (s.setFlags v d).sreg = s.sreg := rfl
@[simp] theorem setFlags_flags : (s.setFlags v d).flags = ⟨v, d⟩ := rfl
@[simp] theorem setFlags_fault : (s.setFlags v d).fault = s.fault := rfl
@[simp] theorem setFlags_xi : (s.setFlags v d).xi = s.xi := rfl
@[simp] theorem setFlags_yi : (s.setFlags v d).yi = s.yi := rfl
@[simp] theorem setFlags_inputs : (s.setFlags v d).inputs = s.inputs := rfl
@[simp] theorem setFlags_responses : (s.setFlags v d).responses = s.responses := rfl

/-! ## latchFault -/

@[simp] theorem latchFault_width : (s.latchFault c).width = s.width := rfl
@[simp] theorem latchFault_sreg : (s.latchFault c).sreg = s.sreg := rfl
@[simp] theorem latchFault_flags : (s.latchFault c).flags = s.flags := rfl
@[simp] theorem latchFault_fault : (s.latchFault c).fault = ⟨true, c.code⟩ := rfl
@[simp] theorem latchFault_xi : (s.latchFault c).xi = s.xi := rfl
@[simp] theorem latchFault_yi : (s.latchFault c).yi = s.yi := rfl
@[simp] theorem latchFault_inputs : (s.latchFault c).inputs = s.inputs := rfl
@[simp] theorem latchFault_responses : (s.latchFault c).responses = s.responses := rfl

/-! ## respond -/

@[simp] theorem respond_width (r h : BitVec s.busWidth) : (s.respond r h).width = s.width := rfl
@[simp] theorem respond_sreg (r h : BitVec s.busWidth) : (s.respond r h).sreg = s.sreg := rfl
@[simp] theorem respond_flags (r h : BitVec s.busWidth) : (s.respond r h).flags = s.flags := rfl
@[simp] theorem respond_fault (r h : BitVec s.busWidth) : (s.respond r h).fault = s.fault := rfl
@[simp] theorem respond_xi (r h : BitVec s.busWidth) : (s.respond r h).xi = s.xi := rfl
@[simp] theorem respond_yi (r h : BitVec s.busWidth) : (s.respond r h).yi = s.yi := rfl
@[simp] theorem respond_inputs (r h : BitVec s.busWidth) : (s.respond r h).inputs = s.inputs := rfl
@[simp] theorem respond_responses (r h : BitVec s.busWidth) :
    (s.respond r h).responses =
      s.responses ++ [⟨r, h, s.flags.v, s.flags.d, s.fault.f, s.fault.cause⟩] := rfl

/-! ## resetBlock -/

@[simp] theorem resetBlock_width : s.resetBlock.width = s.width := rfl
@[simp] theorem resetBlock_sreg : s.resetBlock.sreg = Vector.replicate 4 0#s.width.bits := rfl
@[simp] theorem resetBlock_flags : s.resetBlock.flags = ⟨false, false⟩ := rfl
@[simp] theorem resetBlock_fault : s.resetBlock.fault = ⟨false, 0#3⟩ := rfl
@[simp] theorem resetBlock_xi : s.resetBlock.xi = s.xi := rfl
@[simp] theorem resetBlock_yi : s.resetBlock.yi = s.yi := rfl
@[simp] theorem resetBlock_inputs : s.resetBlock.inputs = s.inputs := rfl
@[simp] theorem resetBlock_responses : s.resetBlock.responses = s.responses := rfl

/-! ## The host's side -/

@[simp] theorem present_width (es : List (HostEvent s.busWidth)) : (s.present es).width = s.width := rfl
@[simp] theorem present_sreg (es : List (HostEvent s.busWidth)) : (s.present es).sreg = s.sreg := rfl
@[simp] theorem present_flags (es : List (HostEvent s.busWidth)) : (s.present es).flags = s.flags := rfl
@[simp] theorem present_fault (es : List (HostEvent s.busWidth)) : (s.present es).fault = s.fault := rfl
@[simp] theorem present_xi (es : List (HostEvent s.busWidth)) : (s.present es).xi = s.xi := rfl
@[simp] theorem present_yi (es : List (HostEvent s.busWidth)) : (s.present es).yi = s.yi := rfl
@[simp] theorem present_inputs (es : List (HostEvent s.busWidth)) :
    (s.present es).inputs = s.inputs ++ es := rfl
@[simp] theorem present_responses (es : List (HostEvent s.busWidth)) :
    (s.present es).responses = s.responses := rfl

@[simp] theorem presentWord_width (k w : Nat) : (s.presentWord k w).width = s.width := rfl
@[simp] theorem presentWord_sreg (k w : Nat) : (s.presentWord k w).sreg = s.sreg := rfl
@[simp] theorem presentWord_flags (k w : Nat) : (s.presentWord k w).flags = s.flags := rfl
@[simp] theorem presentWord_fault (k w : Nat) : (s.presentWord k w).fault = s.fault := rfl
@[simp] theorem presentWord_xi (k w : Nat) : (s.presentWord k w).xi = s.xi := rfl
@[simp] theorem presentWord_yi (k w : Nat) : (s.presentWord k w).yi = s.yi := rfl
@[simp] theorem presentWord_inputs (k w : Nat) :
    (s.presentWord k w).inputs = .command (BitVec.ofNat 16 (w % 2 ^ k)) 0 0 :: s.inputs := rfl
@[simp] theorem presentWord_responses (k w : Nat) : (s.presentWord k w).responses = s.responses := rfl

/-! ## Reading a register after writing one -/

theorem readReg_writeReg_self (b : BitVec s.bits) : (s.writeReg i b).readReg i = b :=
  Vector.getElem_set_self i.isLt

theorem readReg_writeReg_of_ne (b : BitVec s.bits) (h : i ≠ j) :
    (s.writeReg i b).readReg j = s.readReg j :=
  Vector.getElem_set_ne i.isLt j.isLt fun e => h (Fin.ext e)

/-- A register written from a `W`-bit bus behaves as the unit of 40_foundation_scalar.md R84: the low bits are
stored, every other register keeps its bits. -/
theorem writeReg_is_scalarNext {w : Nat} (wdata : BitVec w) :
    (s.writeReg i (scalarConstruct s.bits wdata)).readReg j =
      scalarNext (n := s.bits) (s.readReg j) false (decide (j = i)) wdata := by
  by_cases h : j = i
  · subst h; rw [readReg_writeReg_self]; simp [scalarNext]; rfl
  · rw [readReg_writeReg_of_ne s i j _ (Ne.symm h)]; simp [scalarNext, h]; rfl

/-- Reset is the unit's `reset` port (40_foundation_scalar.md R84). -/
theorem resetBlock_is_scalarNext {w : Nat} (we : Bool) (wdata : BitVec w) :
    s.resetBlock.readReg j = scalarNext (n := s.bits) (s.readReg j) true we wdata :=
  Vector.getElem_replicate j.isLt

end Sys2Proof.Machine
end

