-- ==== Sys2Proof/Laws/Ops.lean ====
section
/-! SUPPORT. One lemma per shared operation that says once everything it can do. -/

namespace Sys2Proof.Machine

variable (s : State)

/-! ## The ends of a command, in the terms of Safety -/

theorem raise_eq (c : Cause) : s.raise c = s.afterFault c.code := rfl

theorem ignore_eq : s.ignore = s.afterAnswer 0 := rfl

theorem completeArith_eq (sg : Sg) (rd : SReg) (o : ArithOut) :
    s.completeArith sg rd o = s.afterArith sg rd o.res o.ovf o.dir := rfl

/-! ## The frame of a command -/

/-- Every command ends in a next state: ignored while `FAULT.F = 1`, its effect else. -/
theorem command_eq (t : State) :
    s.command t = .next (if s.fault.f then s.afterAnswer 0 else t) := rfl

theorem command_of_faulted (t : State) (h : s.fault.f = true) : s.command t = .next (s.afterAnswer 0) := by
  rw [command_eq, if_pos h]

theorem command_of_good (t : State) (h : s.fault.f = false) : s.command t = .next t := by
  rw [command_eq, h]; rfl

/-! ## Operand fetch -/

theorem inrange_iff {w : Nat} (sg : Sg) (n : Nat) (p : BitVec w) :
    inrange sg n p = true ↔ InRange sg n (val sg p) := by
  cases sg
  · simp [inrange, InRange, val, mask_cast, uval_nonneg]
  · simp [inrange, InRange, val]

theorem opx_eq (sg : Sg) (x : Source) :
    s.opx sg x =
      if x = .imm ∧ ¬InRange sg s.bits (val sg s.xi) then .error .xrange else .ok (s.xVal sg x) := by
  cases x with
  | reg r => simp [State.opx, State.operand, State.xVal, State.regVal, State.readReg]
  | imm =>
    by_cases h : InRange sg s.bits (val sg s.xi) <;>
      simp [State.opx, State.operand, State.xVal, cval, inrange_iff, h]

theorem opy_eq (sg : Sg) (y : Source) :
    s.opy sg y =
      if y = .imm ∧ ¬InRange sg s.bits (val sg s.yi) then .error .yrange else .ok (s.yVal sg y) := by
  cases y with
  | reg r => simp [State.opy, State.operand, State.yVal, State.regVal, State.readReg]
  | imm =>
    by_cases h : InRange sg s.bits (val sg s.yi) <;>
      simp [State.opy, State.operand, State.yVal, cval, inrange_iff, h]

/-- Operand fetch answers the first range fault, or both values. -/
theorem operands_eq (sg : Sg) (x y : Source) :
    s.operands sg x y =
      match s.rangeFault sg x y with
      | some c => .error c
      | none => .ok (s.xVal sg x, s.yVal sg y) := by
  unfold State.operands State.rangeFault
  rw [opx_eq, opy_eq]
  by_cases hx : x = .imm ∧ ¬InRange sg s.bits (val sg s.xi)
  · simp only [if_pos hx]
  · by_cases hy : y = .imm ∧ ¬InRange sg s.bits (val sg s.yi)
    · simp only [if_neg hx, if_pos hy]
    · simp only [if_neg hx, if_neg hy]

theorem rangeFault_eq_none_iff (sg : Sg) (x y : Source) :
    s.rangeFault sg x y = none ↔ s.OperandsInRange sg x y := by
  unfold State.rangeFault State.OperandsInRange
  by_cases h1 : x = .imm ∧ ¬InRange sg s.bits (val sg s.xi)
  · rw [if_pos h1]
    exact ⟨nofun, fun h => absurd (h.1 h1.1) h1.2⟩
  · rw [if_neg h1]
    by_cases h2 : y = .imm ∧ ¬InRange sg s.bits (val sg s.yi)
    · rw [if_pos h2]
      exact ⟨nofun, fun h => absurd (h.2 h2.1) h2.2⟩
    · rw [if_neg h2]
      exact ⟨fun _ => ⟨fun e => by_contra fun n => h1 ⟨e, n⟩, fun e => by_contra fun n => h2 ⟨e, n⟩⟩,
        fun _ => rfl⟩

/-- The values fetched are in range for the command's signedness. -/
theorem xVal_inRange {sg : Sg} {x y : Source} (h : s.OperandsInRange sg x y) :
    InRange sg s.bits (s.xVal sg x) := by
  cases x with
  | reg r => exact val_inRange (width_bits_pos s.width) sg _
  | imm => exact h.1 rfl

theorem yVal_inRange {sg : Sg} {x y : Source} (h : s.OperandsInRange sg x y) :
    InRange sg s.bits (s.yVal sg y) := by
  cases y with
  | reg r => exact val_inRange (width_bits_pos s.width) sg _
  | imm => exact h.2 rfl

/-! ## The two command shapes -/

/-- What an arithmetic command does: it is ignored, or faults on a range, or faults in its unit, or completes. -/
theorem arith_eq (sg : Sg) (rd : SReg) (x y : Source) (unit : Nat → Int → Int → Except Cause ArithOut) :
    s.arith sg rd x y unit =
      .next
        (if s.fault.f then s.afterAnswer 0
        else
          match s.rangeFault sg x y with
          | some c => s.afterFault c.code
          | none =>
            match unit s.bits (s.xVal sg x) (s.yVal sg y) with
            | .error c => s.afterFault c.code
            | .ok o => s.afterArith sg rd o.res o.ovf o.dir) := by
  unfold State.arith
  rw [command_eq, operands_eq]
  cases s.rangeFault sg x y with
  | some c => rfl
  | none => cases h : unit s.bits (s.xVal sg x) (s.yVal sg y) <;> simp only [h] <;> rfl

/-- What a wide multiply does: it is ignored, or is illegal, or faults on a range, or completes. -/
theorem wide_eq (sg : Sg) (rh rd : SReg) (x y : Source) :
    s.wide sg rh rd x y =
      .next
        (if s.fault.f then s.afterAnswer 0
        else if rh = rd then s.afterFault 1#3
        else
          match s.rangeFault sg x y with
          | some c => s.afterFault c.code
          | none => s.completeWide sg rh rd (wmul s.bits (s.xVal sg x) (s.yVal sg y))) := by
  unfold State.wide
  rw [command_eq, operands_eq]
  by_cases h : rh = rd
  · simp only [if_pos h]; rfl
  · simp only [if_neg h]
    rcases s.rangeFault sg x y with _ | c <;> rfl

/-! ## The meanings as shared shapes -/

theorem exec_addu (rd : SReg) (x y : Source) :
    exec (.addu rd x y) s = s.arith .u rd x y (saturatingAdder .u) := rfl

theorem exec_adds (rd : SReg) (x y : Source) :
    exec (.adds rd x y) s = s.arith .s rd x y (saturatingAdder .s) := rfl

theorem exec_subu (rd : SReg) (x y : Source) :
    exec (.subu rd x y) s = s.arith .u rd x y (saturatingSubtractor .u) := rfl

theorem exec_subs (rd : SReg) (x y : Source) :
    exec (.subs rd x y) s = s.arith .s rd x y (saturatingSubtractor .s) := rfl

theorem exec_mulu (rd : SReg) (x y : Source) :
    exec (.mulu rd x y) s = s.arith .u rd x y (saturatingMultiplier .u) := rfl

theorem exec_muls (rd : SReg) (x y : Source) :
    exec (.muls rd x y) s = s.arith .s rd x y (saturatingMultiplier .s) := rfl

theorem exec_divu (rd : SReg) (x y : Source) :
    exec (.divu rd x y) s = s.arith .u rd x y (saturatingDivider .u) := rfl

theorem exec_divs (rd : SReg) (x y : Source) :
    exec (.divs rd x y) s = s.arith .s rd x y (saturatingDivider .s) := rfl

theorem exec_wmulu (rh rd : SReg) (x y : Source) :
    exec (.wmulu rh rd x y) s = s.wide .u rh rd x y := rfl

theorem exec_wmuls (rh rd : SReg) (x y : Source) :
    exec (.wmuls rh rd x y) s = s.wide .s rh rd x y := rfl

theorem exec_set (rd : SReg) : exec (.set rd) s = s.command (s.afterSet rd) := rfl

theorem exec_getu (ra : SReg) :
    exec (.getu ra) s = s.command (s.afterAnswer (s.sreg[ra].setWidth s.busWidth)) := rfl

theorem exec_gets (ra : SReg) :
    exec (.gets ra) s = s.command (s.afterAnswer (s.sreg[ra].signExtend s.busWidth)) := rfl

/-! ## The step -/

theorem fetch_nil (h : s.inputs = []) : fetch s = .nothing := by simp only [fetch, h]

theorem fetch_reset (rest : List (HostEvent s.busWidth)) (h : s.inputs = .reset :: rest) :
    fetch s = .reset { s with inputs := rest } := by simp only [fetch, h]

theorem fetch_command (cw : CmdWord) (xi yi : BitVec s.busWidth) (rest : List (HostEvent s.busWidth))
    (h : s.inputs = .command cw xi yi :: rest) : fetch s = .command cw (s.taking rest xi yi) := by
  simp only [fetch, h]; rfl

end Sys2Proof.Machine
end

