-- ==== Sys2Proof/Laws/PerInstr.lean ====
section
/-! SUPPORT. Facts stated of every command as syntax, one lemma per constructor of Instr. -/

namespace Sys2Proof.Laws

/-- The opcode of a command (30_encoding.md R56). -/
def opcode : Instr → BitVec 4
  | .addu _ _ _ => 0x0
  | .adds _ _ _ => 0x1
  | .subu _ _ _ => 0x2
  | .subs _ _ _ => 0x3
  | .mulu _ _ _ => 0x4
  | .muls _ _ _ => 0x5
  | .divu _ _ _ => 0x6
  | .divs _ _ _ => 0x7
  | .wmulu _ _ _ _ => 0x8
  | .wmuls _ _ _ _ => 0x9
  | .set _ => 0xA
  | .getu _ => 0xC
  | .gets _ => 0xD

/-- The command's word carries its opcode in bits 3:0 and zero in the reserved bits 15:14 (30_encoding.md R53,
R56). -/
def EncodeOpcode.Statement (i : Instr) : Prop :=
  fieldOp (encode i) = opcode i ∧ fieldZ (encode i) = 0

theorem packWord_op (rh : BitVec 2) (ib ia : BitVec 1) (rb ra rd : BitVec 2) (op : BitVec 4) :
    fieldOp (packWord rh ib ia rb ra rd op) = op := by
  unfold fieldOp packWord
  exact BitVec.extractLsb'_append_eq_right

theorem packWord_z (rh : BitVec 2) (ib ia : BitVec 1) (rb ra rd : BitVec 2) (op : BitVec 4) :
    fieldZ (packWord rh ib ia rb ra rd op) = 0 := by
  apply BitVec.eq_of_getLsbD_eq
  intro i hi
  have : i = 0 ∨ i = 1 := by omega
  rcases this with rfl | rfl <;>
    simp only [fieldZ, packWord, BitVec.getLsbD_extractLsb', BitVec.getLsbD_append] <;> simp

namespace EncodeOpcode

theorem addu (rd : SReg) (x y : Source) : Statement (.addu rd x y) := ⟨packWord_op .., packWord_z ..⟩
theorem adds (rd : SReg) (x y : Source) : Statement (.adds rd x y) := ⟨packWord_op .., packWord_z ..⟩
theorem subu (rd : SReg) (x y : Source) : Statement (.subu rd x y) := ⟨packWord_op .., packWord_z ..⟩
theorem subs (rd : SReg) (x y : Source) : Statement (.subs rd x y) := ⟨packWord_op .., packWord_z ..⟩
theorem mulu (rd : SReg) (x y : Source) : Statement (.mulu rd x y) := ⟨packWord_op .., packWord_z ..⟩
theorem muls (rd : SReg) (x y : Source) : Statement (.muls rd x y) := ⟨packWord_op .., packWord_z ..⟩
theorem divu (rd : SReg) (x y : Source) : Statement (.divu rd x y) := ⟨packWord_op .., packWord_z ..⟩
theorem divs (rd : SReg) (x y : Source) : Statement (.divs rd x y) := ⟨packWord_op .., packWord_z ..⟩
theorem wmulu (rh rd : SReg) (x y : Source) : Statement (.wmulu rh rd x y) := ⟨packWord_op .., packWord_z ..⟩
theorem wmuls (rh rd : SReg) (x y : Source) : Statement (.wmuls rh rd x y) := ⟨packWord_op .., packWord_z ..⟩
theorem set (rd : SReg) : Statement (.set rd) := ⟨packWord_op .., packWord_z ..⟩
theorem getu (ra : SReg) : Statement (.getu ra) := ⟨packWord_op .., packWord_z ..⟩
theorem gets (ra : SReg) : Statement (.gets ra) := ⟨packWord_op .., packWord_z ..⟩

end EncodeOpcode

end Sys2Proof.Laws
end

