-- ==== Sys2Proof/Tests/Slice0.lean ====
section
/-! SUPPORT. Tests of the model, and for every obligation with hypotheses a witness that meets them. The expected
values are the spec's: the encodings of 30_encoding.md sections 2 and 7, the vectors of 95_test_vectors.md, or the
corner cases of the rule named. -/

namespace Sys2Proof.Tests

open Sys2Proof.Machine

/-! ## Helpers -/

def w4 : Width := ⟨4, by decide, by decide⟩
def w8 : Width := ⟨8, by decide, by decide⟩
def w17 : Width := ⟨17, by decide, by decide⟩
def w32 : Width := ⟨32, by decide, by decide⟩
def w64 : Width := ⟨64, by decide, by decide⟩

/-- A state of the instance `c` with these registers, the fault latch and the ports as given, and nothing
presented. -/
def block (c : Width) (r0 r1 r2 r3 : Nat) (fault : FaultLatch) (xi yi : Nat) : State where
  width := c
  sreg := #v[BitVec.ofNat _ r0, BitVec.ofNat _ r1, BitVec.ofNat _ r2, BitVec.ofNat _ r3]
  flags := ⟨false, false⟩
  fault := fault
  xi := BitVec.ofNat _ xi
  yi := BitVec.ofNat _ yi
  inputs := []
  responses := []

def noFault : FaultLatch := ⟨false, 0#3⟩

/-- The same state with one command presented. -/
def State.offered (s : State) (cw : CmdWord) (xi yi : Nat) : State :=
  s.present [.command cw (BitVec.ofNat _ xi) (BitVec.ofNat _ yi)]

/-- What a test looks at: the last response `r, h, v, d, fault, cause`, then the four registers. -/
def seen : Result → List Nat
  | .next t =>
    (match t.responses.getLast? with
    | some p => [p.r.toNat, p.h.toNat, p.v.toNat, p.d.toNat, p.fault.toNat, p.cause.toNat]
    | none => []) ++ t.sreg.toList.map BitVec.toNat
  | .fault _ => []
  | .refused _ => []

/-- One command presented to an instance right after reset. -/
def after (c : Width) (cw : CmdWord) (xi yi : Nat) : List Nat :=
  seen (step (State.offered (State.resetAt c) cw xi yi))

/-- One command presented to an instance whose registers hold these values. -/
def afterFrom (c : Width) (r0 r1 r2 r3 : Nat) (cw : CmdWord) (xi yi : Nat) : List Nat :=
  seen (step (State.offered (block c r0 r1 r2 r3 noFault 0 0) cw xi yi))

/-! ## Well-formedness (30_encoding.md R60 item 4) -/

theorem test_wmulu_same_destinations_refused : (Instr.wmulu 2 2 (.reg 0) .imm).wellFormed = false := by decide
theorem test_wmuls_same_destinations_refused : (Instr.wmuls 0 0 .imm .imm).wellFormed = false := by decide
theorem test_wmulu_two_destinations_accepted : (Instr.wmulu 1 2 (.reg 0) .imm).wellFormed = true := by decide

/-! ## Decoding words written out from the encoding

The words are grouped `z rh ib ia rb ra rd op`. -/

theorem test_decode_addu : decode 0b00_00_1_1_00_00_00_0000#16 = .ok (.addu 0 .imm .imm) := by decide
theorem test_decode_adds : decode 0b00_00_0_0_11_10_01_0001#16 = .ok (.adds 1 (.reg 2) (.reg 3)) := by decide
theorem test_decode_subu : decode 0b00_00_1_0_00_11_11_0010#16 = .ok (.subu 3 (.reg 3) .imm) := by decide
theorem test_decode_subs : decode 0b00_00_0_1_01_00_10_0011#16 = .ok (.subs 2 .imm (.reg 1)) := by decide
theorem test_decode_mulu : decode 0b00_00_0_0_11_10_10_0100#16 = .ok (.mulu 2 (.reg 2) (.reg 3)) := by decide
theorem test_decode_muls : decode 0b00_00_0_0_01_01_00_0101#16 = .ok (.muls 0 (.reg 1) (.reg 1)) := by decide
theorem test_decode_divu : decode 0b00_00_0_0_10_00_01_0110#16 = .ok (.divu 1 (.reg 0) (.reg 2)) := by decide
theorem test_decode_divs : decode 0b00_00_0_1_01_00_10_0111#16 = .ok (.divs 2 .imm (.reg 1)) := by decide
theorem test_decode_wmulu : decode 0b00_11_0_0_01_00_10_1000#16 = .ok (.wmulu 3 2 (.reg 0) (.reg 1)) := by decide
theorem test_decode_wmuls : decode 0b00_01_0_0_11_10_00_1001#16 = .ok (.wmuls 1 0 (.reg 2) (.reg 3)) := by decide
theorem test_decode_set : decode 0b00_00_0_1_00_00_10_1010#16 = .ok (.set 2) := by decide
theorem test_decode_getu : decode 0b00_00_0_0_00_01_00_1100#16 = .ok (.getu 1) := by decide
theorem test_decode_gets : decode 0b00_00_0_0_00_11_00_1101#16 = .ok (.gets 3) := by decide

/-- One word for each of the eight items of 30_encoding.md R60, in order. -/
theorem test_decode_illegal :
    [0x000B#16, 0x4C00#16, 0x1C00#16, 0x0248#16, 0x0C40#16, 0x0D00#16, 0x000A#16, 0x001C#16].map decode =
      [.error .reservedOpcode, .error .reservedBits, .error .highRegister, .error .sameDestinations,
        .error .unusedRa, .error .unusedRb, .error .constructFields, .error .getFields] := by decide

theorem test_encode_wmuls : encode (.wmuls 1 0 (.reg 2) (.reg 3)) = 0x1389#16 := by decide
theorem test_decodeTableWord : decodeTableWord 16 0x0527 = some (.divs 2 .imm (.reg 1)) := by decide

/-! ## One step of each command -/

theorem test_addu_clamps : after w17 0x0C00#16 0x1FFFF 1 = [0x1FFFF, 0, 1, 0, 0, 0, 0x1FFFF, 0, 0, 0] := by decide
theorem test_addu_wraps_container :
    after w64 0x0C00#16 0xFFFFFFFFFFFFFFFF 0xFFFFFFFFFFFFFFFF =
      [0xFFFFFFFFFFFFFFFF, 0, 1, 0, 0, 0, 0xFFFFFFFFFFFFFFFF, 0, 0, 0] := by decide
theorem test_adds_clamps_to_minimum :
    after w17 0x0C01#16 0xFFFF0000 0xFFFFFFFF = [0xFFFF0000, 0, 1, 1, 0, 0, 0x10000, 0, 0, 0] := by decide
theorem test_adds_clamps_to_maximum :
    after w32 0x0C01#16 0x7FFFFFFE 2 = [0x7FFFFFFF, 0, 1, 0, 0, 0, 0x7FFFFFFF, 0, 0, 0] := by decide
theorem test_subu_clamps : after w8 0x0C02#16 5 10 = [0, 0, 1, 1, 0, 0, 0, 0, 0, 0] := by decide
theorem test_subu_operand_order : afterFrom w8 0 9 4 0 0x0252#16 0 0 = [5, 0, 0, 0, 0, 0, 0, 5, 4, 0] := by decide
theorem test_subs_clamps_to_minimum :
    after w32 0x0C03#16 0x80000000 1 = [0x80000000, 0, 1, 1, 0, 0, 0x80000000, 0, 0, 0] := by decide
theorem test_subs_exact_minimum :
    after w17 0x0C03#16 0xFFFFFFFF 0xFFFF = [0xFFFF0000, 0, 0, 0, 0, 0, 0x10000, 0, 0, 0] := by decide
theorem test_mulu_clamps :
    after w32 0x0C04#16 0x00D385F3 0x402D6FEC = [0xFFFFFFFF, 0, 1, 0, 0, 0, 0xFFFFFFFF, 0, 0, 0] := by decide
theorem test_mulu_exact_maximum : after w8 0x0C04#16 15 17 = [0xFF, 0, 0, 0, 0, 0, 0xFF, 0, 0, 0] := by decide
theorem test_muls_clamps :
    after w32 0x0C05#16 3 0xB0000000 = [0x80000000, 0, 1, 1, 0, 0, 0x80000000, 0, 0, 0] := by decide
theorem test_muls_exact_minimum :
    after w17 0x0C05#16 0xFFFFFF00 0x100 = [0xFFFF0000, 0, 0, 0, 0, 0, 0x10000, 0, 0, 0] := by decide
theorem test_divu_inexact : after w17 0x0C06#16 0x1FFFF 3 = [0xAAAA, 0, 0, 0, 0, 0, 0xAAAA, 0, 0, 0] := by decide
theorem test_divu_by_zero : after w8 0x0C06#16 7 0 = [0, 0, 0, 0, 1, 4, 0, 0, 0, 0] := by decide
theorem test_divs_saturates : after w17 0x0C07#16 0xFFFF0000 0xFFFFFFFF =
    [0xFFFF, 0, 1, 0, 0, 0, 0xFFFF, 0, 0, 0] := by decide
/-- Depends on decision D10 (log 7). -/
theorem test_divs_toward_zero : after w8 0x0C07#16 0xF9 2 = [0xFD, 0, 0, 0, 0, 0, 0xFD, 0, 0, 0] := by decide
theorem test_wmulu_irregular_width :
    after w17 0x1C08#16 0x1FFFF 0x1FFFF = [1, 0x1FFFE, 0, 0, 0, 0, 1, 0x1FFFE, 0, 0] := by decide
/-- The sources are the destinations (70_reset_and_hazards.md R176): the old `s0` times the old `s1`. -/
theorem test_wmulu_reads_before_writes :
    afterFrom w8 255 255 0 0 0x1108#16 0 0 = [1, 254, 0, 0, 0, 0, 1, 254, 0, 0] := by decide
theorem test_wmuls_low_half_on_bus :
    after w17 0x1C09#16 0xFFFF0000 0xFFFF = [0xFFFF0000, 0xFFFF8000, 0, 0, 0, 0, 0x10000, 0x18000, 0, 0] := by decide
theorem test_wmuls_full_width :
    after w64 0x1C09#16 0x8000000000000000 0x7FFFFFFFFFFFFFFF =
      [0x8000000000000000, 0xC000000000000000, 0, 0, 0, 0, 0x8000000000000000, 0xC000000000000000, 0, 0] := by decide
theorem test_set_truncates :
    after w17 0x042A#16 0x00020005 0 = [5, 0, 0, 0, 0, 0, 0, 0, 5, 0] := by decide
theorem test_getu_zero_extends :
    afterFrom w17 0x1EF12 0 0 0 0x000C#16 0 0 = [0x1EF12, 0, 0, 0, 0, 0, 0x1EF12, 0, 0, 0] := by decide
theorem test_gets_sign_extends :
    afterFrom w17 0x1EF12 0 0 0 0x000D#16 0 0 = [0xFFFFEF12, 0, 0, 0, 0, 0, 0x1EF12, 0, 0, 0] := by decide

/-! ## Faults (60_exceptions.md R158 and 95_test_vectors.md sections 2.7 and 2.8) -/

theorem test_xrange_before_divzero : after w4 0x0C06#16 0x10 0 = [0, 0, 0, 0, 1, 2, 0, 0, 0, 0] := by decide
theorem test_yrange : after w17 0x0C02#16 0 0xFFFFFFFF = [0, 0, 0, 0, 1, 3, 0, 0, 0, 0] := by decide
theorem test_illegal_before_xrange : after w4 0x0C0B#16 0x10 0x20 = [0, 0, 0, 0, 1, 1, 0, 0, 0, 0] := by decide
theorem test_faulted_ignores_set :
    seen (step (State.offered (block w8 1 2 3 4 ⟨true, 4#3⟩ 0 0) 0x040A#16 9 0)) =
      [0, 0, 0, 0, 1, 4, 1, 2, 3, 4] := by decide

/-- The word placed by `withFetchWord` is the very next command: `SET s2` with an immediate of zero, from reset. -/
theorem test_withFetchWord : seen (step (State.reset.withFetchWord 16 0x042A)) = [0, 0, 0, 0, 0, 0, 0, 0, 0, 0] := by
  decide

/-! ## The half-word algorithm, on the worked numbers of 41_wide_multiply.md R94 to R96 -/

theorem test_wideCoreU : wideCoreU 8 0xFF#8 0xFF#8 = ⟨0xFE#8, 0x01#8⟩ := by decide
theorem test_wideCoreS : wideCoreS 8 0x80#8 0x7F#8 = ⟨0xC0#8, 0x80#8⟩ := by decide
theorem test_wideAdjust : wideAdjust 32 17 ⟨0x00000003#32, 0xFFFC0001#32⟩ = ⟨0x1FFFE#17, 0x00001#17⟩ := by decide

/-! ## Witnesses: concrete values that meet all hypotheses of a statement, one theorem for each obligation -/

/-- Registers at the ends of the ranges at `N = 17`, no fault, both ports in range for both views. -/
def ready : State := block w17 0x10000 0x1FFFF 0xFFFF 0 noFault 0xFFFF 0

/-- The same registers with the latch set by a division by zero. -/
def faulted : State := block w17 0x10000 0x1FFFF 0xFFFF 0 ⟨true, 4#3⟩ 0xFFFF 0

def nextIs (o : Result) (p : State → Bool) : Bool :=
  match o with
  | .next t => p t
  | .fault _ => false
  | .refused _ => false

/-- For DecodeOfEncodeIsIdentity. -/
theorem test_witness_decodeOfEncode :
    (Instr.wmuls 1 0 (.reg 2) .imm).wellFormed = true ∧ (Instr.wmulu 0 3 .imm (.reg 0)).wellFormed = true := by decide

/-- For LegalWordIsTheEncoding. -/
theorem test_witness_legalWord : decode 0x1389#16 = .ok (.wmuls 1 0 (.reg 2) (.reg 3)) := by decide

/-- For WidthAndLimits: a bit of a pattern, a native width, and both ends of the width range. -/
theorem test_witness_widthAndLimits :
    (w17.bits ≤ 17 ∧ 17 < 32) ∧ (32 : Nat) ∈ [8, 16, 32, 64] ∧ w17.bits ≤ 32 ∧ w4.bits ≤ 8 ∧ w64.bits ≤ 64 := by decide

/-- For UnsignedSumAndDifferenceExact, ProductsExact, CommutativityAndIdentities, WideProductExact and
HalfWordAlgorithmMeetsContract: both ends of the unsigned range, where the sum is above it and the difference below. -/
theorem test_witness_unsignedOperands :
    InRange .u w17.bits 131071 ∧ InRange .u w17.bits 1 ∧ InRange .u w17.bits 0 ∧ ¬InRange .u w17.bits (131071 + 1) ∧
      ¬InRange .u w17.bits (0 - 1) := by decide

/-- For SignedSumAndDifferenceExact, SignedOverflowPredicatesExact and the signed clauses of the statements above: both
ends of the signed range, where the sum, the difference and the product leave it. -/
theorem test_witness_signedOperands :
    InRange .s w17.bits (-65536) ∧ InRange .s w17.bits (-1) ∧ InRange .s w17.bits 65535 ∧
      ¬InRange .s w17.bits (-65536 + -1) ∧ ¬InRange .s w17.bits (65535 - -1) ∧
      ¬InRange .s w17.bits (-65536 * -1) := by decide

/-- For QuotientsExact, both clauses; the second is the one quotient that saturates. -/
theorem test_witness_quotients :
    (InRange .u w8.bits 255 ∧ InRange .u w8.bits 2 ∧ (2 : Int) ≠ 0) ∧
      (InRange .s w8.bits (-128) ∧ InRange .s w8.bits (-1) ∧ (-1 : Int) ≠ 0) := by decide

/-- For SaturationIsClampOfExact and DirectionIsTheSideOfTheClamp: a signed division clamped to the maximum and an
unsigned subtraction clamped to the minimum. -/
theorem test_witness_saturation :
    (InRange .s w8.bits (-128) ∧ InRange .s w8.bits (-1) ∧ (ArithOp.div = .div → (-1 : Int) ≠ 0)) ∧
      (detect .div .s w8.bits (-128) (-1)).ovf = true ∧
      (InRange .u w8.bits 5 ∧ InRange .u w8.bits 0 ∧ (ArithOp.sub = .div → (0 : Int) ≠ 0)) ∧
      (detect .sub .u w8.bits 0 5).ovf = true := by decide

/-- For ResultsStayInRange. -/
theorem test_witness_resultsStayInRange :
    InRange .s w8.bits (-128) ∧ InRange .s w8.bits (-1) ∧ sourceFunction .div .s w8.bits (-128) (-1) = some 127 := by
  decide

/-- For ScalarArithmeticIsNBit: the least and the greatest shift. -/
theorem test_witness_shift : (0 : Nat) < w17.bits ∧ (16 : Nat) < w17.bits := by decide

/-- For RangeCheckIsTheBitPattern and ScalarRoundTripIffInRange: in range and out of range at the boundary of each
view, and an instance with `N = W`. -/
theorem test_witness_rangeCheck :
    inrange .u w17.bits 0x1FFFF#32 = true ∧ inrange .u w17.bits 0x20000#32 = false ∧
      inrange .s w17.bits 0xFFFF0000#32 = true ∧ inrange .s w17.bits 0xFFFEFFFF#32 = false ∧
      w8.bits = container w8.bits := by decide

/-- For StepRunsTheDecodedCommand. -/
theorem test_witness_stepRuns :
    (State.offered ready 0x0391#16 0 0).inputs = [.command 0x0391#16 0 0] ∧
      decode 0x0391#16 = .ok (.adds 1 (.reg 2) (.reg 3)) := by decide

/-- For IllegalWordRaisesIllegal and the illegal word of FlagsFollowTheDetector. -/
theorem test_witness_illegalWord :
    (State.offered ready 0x000B#16 0 0).inputs = [.command 0x000B#16 0 0] ∧
      decode 0x000B#16 = .error .reservedOpcode ∧ (State.offered ready 0x000B#16 0 0).fault.f = false := by decide

/-- For ResetEventZeroesTheBlock, from a faulted state. -/
theorem test_witness_resetEvent :
    (faulted.present [.reset, .command 0x042A#16 1 2]).inputs = .reset :: [.command 0x042A#16 1 2] := by decide

/-- For EveryCommandIsAnsweredOnce: a command that faults and one presented in the faulted state. -/
theorem test_witness_answered :
    (State.offered ready 0x0C06#16 7 0).inputs = [.command 0x0C06#16 7 0] ∧
      seen (step (State.offered ready 0x0C06#16 7 0)) = [0, 0, 0, 0, 1, 4, 0x10000, 0x1FFFF, 0xFFFF, 0] ∧
      (State.offered faulted 0x042A#16 7 0).inputs = [.command 0x042A#16 7 0] ∧
      (State.offered faulted 0x042A#16 7 0).fault.f = true := by decide

/-- For CommandsWriteOnlyTheirDestinations, each clause: a register that is no destination, a command that is not
arithmetic, a command that faults, and a state that is faulted already. -/
theorem test_witness_writes :
    (3 : SReg) ∉ (Instr.wmulu 1 0 (.reg 2) .imm).writes ∧ (Instr.wmulu 1 0 (.reg 2) .imm).arith? = none ∧
      nextIs (exec (.divu 0 (.reg 0) .imm) ready) (fun t => t.fault.f) = true ∧ faulted.fault.f = true := by decide

/-- For AdderCommandsComplete, SubtractorCommandsComplete and MultiplierCommandsComplete: register and immediate operands
in range at both ends, in a state that is not faulted. -/
theorem test_witness_operands :
    ready.fault.f = false ∧
      ((Source.reg 0 = .imm → InRange .u ready.bits (val .u ready.xi)) ∧
        (Source.imm = .imm → InRange .u ready.bits (val .u ready.yi))) ∧
      ((Source.imm = .imm → InRange .s ready.bits (val .s ready.xi)) ∧
        (Source.reg 1 = .imm → InRange .s ready.bits (val .s ready.yi))) := by decide

/-- For DividerCommandsComplete with the operands above: a divisor that is not zero, and the one signed quotient that
saturates. -/
theorem test_witness_divider :
    ready.fault.f = false ∧ ready.yVal .u (.reg 1) ≠ 0 ∧ ready.xVal .s (.reg 0) = -(2 ^ (ready.bits - 1)) ∧
      ready.yVal .s (.reg 1) = -1 ∧ ready.yVal .s (.reg 2) ≠ 0 ∧ ready.yVal .s (.reg 2) ≠ -1 := by decide

/-- For WideMultiplyCommandsComplete with the operands above, ScalarCommandsComplete and
PseudoInstructionsDoWhatTheySay. -/
theorem test_witness_wide : ready.fault.f = false ∧ (3 : SReg) ≠ 0 := by decide

/-- For FlagsFollowTheDetector: a command that completes with overflow, one that faults, one with no flags. -/
theorem test_witness_flags :
    nextIs (exec (.adds 3 (.reg 0) (.reg 1)) ready) (fun t => t.flags.v && t.flags.d && !t.fault.f) = true ∧
      nextIs (exec (.divu 3 (.reg 0) .imm) ready) (fun t => t.fault.f) = true ∧
      nextIs (exec (.getu 3) ready) (fun t => !t.fault.f) = true := by decide

/-- For UnusedImmediatesAreIgnored, both clauses. -/
theorem test_witness_unused :
    (Instr.addu 3 (.reg 0) .imm).usesXi = false ∧ (Instr.addu 3 .imm (.reg 0)).usesYi = false ∧
      (Instr.getu 1).usesXi = false ∧ (Instr.set 1).usesYi = false ∧
      nextIs (exec (.addu 3 (.reg 0) .imm) ready) (fun _ => true) = true := by decide

/-- For CommandsFaultByPriority: each cause, and no cause. -/
theorem test_witness_causes :
    ready.fault.f = false ∧
      ready.causeOf (.wmulu 2 2 .imm .imm) = some .illegal ∧
      (block w17 0 0 0 0 noFault 0x20000 0x20000).causeOf (.divu 0 .imm .imm) = some .xrange ∧
      (block w17 0 0 0 0 noFault 0 0x20000).causeOf (.divu 0 .imm .imm) = some .yrange ∧
      ready.causeOf (.divs 0 (.reg 0) .imm) = some .divzero ∧
      ready.causeOf (.adds 0 (.reg 0) (.reg 1)) = none := by decide

/-- For FaultEntryIsPrecise. -/
theorem test_witness_faultEntry :
    (State.offered ready 0x0C06#16 7 0).inputs = [.command 0x0C06#16 7 0] ∧
      (State.offered ready 0x0C06#16 7 0).fault.f = false ∧
      nextIs (step (State.offered ready 0x0C06#16 7 0)) (fun t => t.fault.f) = true := by decide

/-- For FaultedStateIgnoresCommands, with an illegal word. -/
theorem test_witness_faultedState :
    (State.offered faulted 0x000B#16 7 0).inputs = [.command 0x000B#16 7 0] ∧
      (State.offered faulted 0x000B#16 7 0).fault.f = true := by decide

/-- For NothingPresentedIsIdleOrFaulted, both clauses. -/
theorem test_witness_nothingPresented :
    (ready.inputs = [] ∧ ready.fault.f = false) ∧ (faulted.inputs = [] ∧ faulted.fault.f = true) := by decide

/-- For FaultIsStickyUntilReset. -/
theorem test_witness_sticky :
    (State.offered faulted 0x042A#16 7 0).fault.f = true ∧
      (State.offered faulted 0x042A#16 7 0).inputs.all HostEvent.isCommand = true := by decide

/-- For EveryStepKeepsFlagAndFaultInvariant: two states that have the invariant. -/
theorem test_witness_inv_holds : ready.Inv ∧ faulted.Inv :=
  ⟨⟨by decide, by decide, by decide⟩, ⟨by decide, by decide, by decide⟩⟩

/-- For EveryStepKeepsFlagAndFaultInvariant and NoStepChangesTheWidth: steps that answer a next state, without a fault,
into one, and out of one. -/
theorem test_witness_inv_step :
    nextIs (step (State.offered ready 0x0381#16 0 0)) (fun t => !t.fault.f) = true ∧
      nextIs (step (State.offered ready 0x0C06#16 7 0)) (fun t => t.fault.f) = true ∧
      nextIs (step (faulted.present [.reset])) (fun t => !t.fault.f) = true := by decide

/-- For RunAnswersEveryCommand: a run that ends good and one that ends faulted. -/
theorem test_witness_runs :
    nextIs (runEnd w17 [.command 0x0C00#16 1 2, .reset, .command 0x042A#16 1 2]) (fun t => !t.fault.f) = true ∧
      nextIs (runEnd w17 [.command 0x0C06#16 1 0, .command 0x042A#16 1 2]) (fun t => t.fault.f) = true := by decide

/-- For AssembledCallReturnsSourceFunction. -/
theorem test_witness_assembledCall :
    InRange .s w8.bits (-7) ∧ InRange .s w8.bits 2 ∧ sourceFunction .div .s w8.bits (-7) 2 = some (-3) := by decide

/-- For SetThenReadUnderEitherView. -/
theorem test_witness_setThenRead :
    ready.fault.f = false ∧
      (ready.present [.command 0x040A#16 9 0, .command 0x000D#16 0 0]).inputs =
        .command (encode (.set 0)) 9 0 :: .command (encode (.gets 0)) 0 0 :: [] := by decide

end Sys2Proof.Tests
end

section
/-! The scope statements (00_scope.md): what one step of the block can be at all. The equations of `step` and the
inversion lemma `step_cases` say it once; the settled statements are uses of them. -/

namespace Sys2Proof.Machine

/-! ## The step, event by event -/

theorem step_of_nothing (s : State) (h : s.inputs = []) : step s = execIdle s := by
  simp only [step, fetch_nil s h]

theorem step_of_reset (s : State) (rest : List (HostEvent s.busWidth)) (h : s.inputs = .reset :: rest) :
    step s = .next { s with inputs := rest }.resetBlock := by
  simp only [step, fetch_reset s rest h, execReset]

theorem step_of_legal (s : State) {cw : CmdWord} {i : Instr} (xi yi : BitVec s.busWidth)
    (rest : List (HostEvent s.busWidth)) (h : s.inputs = .command cw xi yi :: rest) (hd : decode cw = .ok i) :
    step s = exec i (s.taking rest xi yi) := by
  simp only [step, fetch_command s cw xi yi rest h, hd]

theorem step_of_illegal (s : State) {cw : CmdWord} {e : Illegal} (xi yi : BitVec s.busWidth)
    (rest : List (HostEvent s.busWidth)) (h : s.inputs = .command cw xi yi :: rest) (hd : decode cw = .error e) :
    step s = execIllegal (s.taking rest xi yi) := by
  simp only [step, fetch_command s cw xi yi rest h, hd]

theorem execIdle_of_good (s : State) (h : s.fault.f = false) : execIdle s = .next s := by
  rw [execIdle, h]; rfl

theorem execIdle_of_faulted (s : State) (h : s.fault.f = true) :
    execIdle s = .fault (.runFaulted s.fault.cause) := by
  rw [execIdle, if_pos h]

/-! ## The ends of a command -/

/-- The states a command can end in (30_encoding.md R62), `s` being the state with the command taken: a fault, an
arithmetic result with the detector's flags, a wide product, a register set, or an answer alone (a read, or a
command ignored in the faulted state). -/
inductive CommandEnd (s : State) : State → Prop
  | fault (c : Cause) : CommandEnd s (s.afterFault c.code)
  | arith (op : ArithOp) (sg : Sg) (rd : SReg) (x y res : Int) :
      CommandEnd s
        (s.afterArith sg rd res (detect op sg s.bits x y).ovf (detect op sg s.bits x y).dir)
  | wide (sg : Sg) (rh rd : SReg) (p : Halves s.bits) : CommandEnd s (s.completeWide sg rh rd p)
  | set (rd : SReg) : CommandEnd s (s.afterSet rd)
  | answer (r : BitVec s.busWidth) : CommandEnd s (s.afterAnswer r)

/-- The frame of a command adds one end only, the faulted response. -/
theorem command_ends {s e : State} (he : CommandEnd s e) : ∃ t, s.command e = .next t ∧ CommandEnd s t := by
  cases hf : s.fault.f with
  | true => exact ⟨_, command_of_faulted s e hf, .answer 0⟩
  | false => exact ⟨e, command_of_good s e hf, he⟩

/-- A saturating unit gives the detector's flags for its operation, whatever its result (42_overflow_detector.md
R100, R112). -/
def UnitDetects (op : ArithOp) (sg : Sg) (unit : Nat → Int → Int → Except Cause ArithOut) : Prop :=
  ∀ (n : Nat) (x y : Int) (o : ArithOut), unit n x y = .ok o → ∃ res : Int, o = detected op sg n x y res

theorem saturatingAdder_detects (sg : Sg) : UnitDetects .add sg (saturatingAdder sg) := by
  intro n x y o h
  cases sg <;> exact ⟨_, (Except.ok.inj h).symm⟩

theorem saturatingSubtractor_detects (sg : Sg) : UnitDetects .sub sg (saturatingSubtractor sg) := by
  intro n x y o h
  cases sg <;> exact ⟨_, (Except.ok.inj h).symm⟩

theorem saturatingMultiplier_detects (sg : Sg) : UnitDetects .mul sg (saturatingMultiplier sg) := by
  intro n x y o h
  cases sg <;> exact ⟨_, (Except.ok.inj h).symm⟩

theorem saturatingDivider_detects (sg : Sg) : UnitDetects .div sg (saturatingDivider sg) := by
  intro n x y o h
  unfold saturatingDivider at h
  cases hq : quotient sg n x y with
  | none => rw [hq] at h; cases h
  | some q => rw [hq] at h; exact ⟨q, (Except.ok.inj h).symm⟩

theorem arith_ends (s : State) {op : ArithOp} {sg : Sg} (rd : SReg) (x y : Source)
    {unit : Nat → Int → Int → Except Cause ArithOut} (hunit : UnitDetects op sg unit) :
    ∃ t, s.arith sg rd x y unit = .next t ∧ CommandEnd s t := by
  refine ⟨_, arith_eq s sg rd x y unit, ?_⟩
  split
  case isTrue => exact .answer 0
  case isFalse =>
    split
    case h_1 c _ => exact .fault c
    case h_2 =>
      split
      case h_1 c _ => exact .fault c
      case h_2 o ho =>
        obtain ⟨res, rfl⟩ := hunit _ _ _ o ho
        exact .arith op sg rd _ _ res

theorem wide_ends (s : State) (sg : Sg) (rh rd : SReg) (x y : Source) :
    ∃ t, s.wide sg rh rd x y = .next t ∧ CommandEnd s t := by
  refine ⟨_, wide_eq s sg rh rd x y, ?_⟩
  split
  case isTrue => exact .answer 0
  case isFalse =>
    split
    case isTrue => exact .fault .illegal
    case isFalse =>
      split
      case h_1 c _ => exact .fault c
      case h_2 => exact .wide sg rh rd _

/-- Every legal command answers a next state, at one of the ends. -/
theorem exec_ends (i : Instr) (s : State) : ∃ t, exec i s = .next t ∧ CommandEnd s t := by
  cases i with
  | addu rd x y => exact arith_ends s rd x y (saturatingAdder_detects .u)
  | adds rd x y => exact arith_ends s rd x y (saturatingAdder_detects .s)
  | subu rd x y => exact arith_ends s rd x y (saturatingSubtractor_detects .u)
  | subs rd x y => exact arith_ends s rd x y (saturatingSubtractor_detects .s)
  | mulu rd x y => exact arith_ends s rd x y (saturatingMultiplier_detects .u)
  | muls rd x y => exact arith_ends s rd x y (saturatingMultiplier_detects .s)
  | divu rd x y => exact arith_ends s rd x y (saturatingDivider_detects .u)
  | divs rd x y => exact arith_ends s rd x y (saturatingDivider_detects .s)
  | wmulu rh rd x y => exact wide_ends s .u rh rd x y
  | wmuls rh rd x y => exact wide_ends s .s rh rd x y
  | set rd => exact command_ends (.set rd)
  | getu ra => exact command_ends (.answer _)
  | gets ra => exact command_ends (.answer _)

theorem execIllegal_ends (s : State) : ∃ t, execIllegal s = .next t ∧ CommandEnd s t :=
  command_ends (.fault .illegal)

/-- A presented command, legal or not, answers a next state, at one of the ends. -/
theorem step_of_command (s : State) (cw : CmdWord) (xi yi : BitVec s.busWidth)
    (rest : List (HostEvent s.busWidth)) (h : s.inputs = .command cw xi yi :: rest) :
    ∃ t, step s = .next t ∧ CommandEnd (s.taking rest xi yi) t := by
  cases hd : decode cw with
  | ok i => rw [step_of_legal s xi yi rest h hd]; exact exec_ends i _
  | error e => rw [step_of_illegal s xi yi rest h hd]; exact execIllegal_ends _

/-! ## What a step can do -/

/-- A step that answers a next state was idle without a fault, took a reset, or took a command to one of its
ends. -/
theorem step_cases {s t : State} (h : step s = .next t) :
    (s.inputs = [] ∧ s.fault.f = false ∧ t = s) ∨
    (∃ rest, s.inputs = .reset :: rest ∧ t = { s with inputs := rest }.resetBlock) ∨
    (∃ cw xi yi rest, s.inputs = .command cw xi yi :: rest ∧ CommandEnd (s.taking rest xi yi) t) := by
  rcases hin : s.inputs with _ | ⟨_ | ⟨cw, xi, yi⟩, rest⟩
  case nil =>
    rw [step_of_nothing s hin] at h
    cases hf : s.fault.f with
    | true => rw [execIdle_of_faulted s hf] at h; cases h
    | false => rw [execIdle_of_good s hf] at h; cases h; exact .inl ⟨rfl, rfl, rfl⟩
  case cons.reset =>
    rw [step_of_reset s rest hin] at h
    cases h
    exact .inr (.inl ⟨rest, rfl, rfl⟩)
  case cons.command =>
    obtain ⟨u, hu, hend⟩ := step_of_command s cw xi yi rest hin
    rw [hu] at h
    cases h
    exact .inr (.inr ⟨cw, xi, yi, rest, rfl, hend⟩)

/-- No end of a command touches the width: each is an update of other fields. -/
theorem CommandEnd.width_eq {s t : State} (h : CommandEnd s t) : t.width = s.width := by
  cases h with
  | fault c => rfl
  | arith op sg rd x y res => rfl
  | wide sg rh rd p => rfl
  | set rd => rfl
  | answer r => rfl

/-! ## The settled statements -/

/-- Settles O38: with nothing presented the step is the idle step, which looks at `FAULT.F` alone. -/
theorem nothingPresentedIsIdleOrFaulted : Obligations.NothingPresentedIsIdleOrFaulted := by
  intro s hin
  rw [step_of_nothing s hin]
  exact ⟨execIdle_of_good s, execIdle_of_faulted s⟩

/-- Settles O42, by the cases of a step: idle, a reset, or the end of a command. -/
theorem noStepChangesTheWidth : Obligations.NoStepChangesTheWidth := by
  intro s t h
  obtain ⟨-, -, rfl⟩ | ⟨rest, -, rfl⟩ | ⟨cw, xi, yi, rest, -, hend⟩ := step_cases h
  · rfl
  · exact resetBlock_width _
  · exact hend.width_eq

end Sys2Proof.Machine
end

section
/-! The state statements (10_state.md): what a register reads, what a command may write, when `FLAGS` follows the
detector, and the invariant of R33. `ExecEnd` says once how each command ends, in terms of the registers and the
operation the command names; the frame statements are read off it case by case. -/

namespace Sys2Proof.Machine

/-! ## Pure facts -/

/-- Truncating an unsigned value is cutting the pattern to its low bits. -/
theorem trunc_uval_eq_setWidth {w : Nat} (n : Nat) (b : BitVec w) : trunc n (uval b) = b.setWidth n := by
  rw [trunc, uval, BitVec.ofInt_natCast, BitVec.ofNat_toNat]

/-- `D` is never set alone (10_state.md R26): the detector answers `dir` only beside `ovf`. -/
theorem detect_ovf_of_dir {op : ArithOp} {sg : Sg} {n : Nat} {x y : Int} (h : (detect op sg n x y).dir = true) :
    (detect op sg n x y).ovf = true := by
  cases op with
  | add =>
    cases sg with
    | u => cases h
    | s => exact Bool.and_elim_left h
  | sub =>
    cases sg with
    | u => exact h
    | s => exact Bool.and_elim_left h
  | mul =>
    cases sg with
    | u => cases h
    | s => exact Bool.and_elim_left h
  | div => cases sg <;> cases h

/-- The four causes are coded 1 to 4, so none reads as 'no fault' (60_exceptions.md R155). -/
theorem Cause.code_ne_zero (c : Cause) : c.code ≠ 0#3 := by cases c <;> decide

theorem Cause.code_le_four (c : Cause) : c.code.toNat ≤ 4 := by cases c <;> decide

/-! ## FLAGS and FAULT at the ends of a command -/

section Ends

variable (s : State)

@[simp] theorem taking_flags (rest : List (HostEvent s.busWidth)) (xi yi : BitVec s.busWidth) :
    (s.taking rest xi yi).flags = s.flags := rfl
@[simp] theorem taking_fault (rest : List (HostEvent s.busWidth)) (xi yi : BitVec s.busWidth) :
    (s.taking rest xi yi).fault = s.fault := rfl
@[simp] theorem afterFault_flags (c : BitVec 3) : (s.afterFault c).flags = s.flags := rfl
@[simp] theorem afterFault_fault (c : BitVec 3) : (s.afterFault c).fault = ⟨true, c⟩ := rfl
@[simp] theorem afterArith_flags (sg : Sg) (rd : SReg) (res : Int) (v d : Bool) :
    (s.afterArith sg rd res v d).flags = ⟨v, d⟩ := rfl
@[simp] theorem afterArith_fault (sg : Sg) (rd : SReg) (res : Int) (v d : Bool) :
    (s.afterArith sg rd res v d).fault = s.fault := rfl
@[simp] theorem completeWide_flags (sg : Sg) (rh rd : SReg) (p : Halves s.bits) :
    (s.completeWide sg rh rd p).flags = s.flags := rfl
@[simp] theorem completeWide_fault (sg : Sg) (rh rd : SReg) (p : Halves s.bits) :
    (s.completeWide sg rh rd p).fault = s.fault := rfl
@[simp] theorem afterSet_flags (rd : SReg) : (s.afterSet rd).flags = s.flags := rfl
@[simp] theorem afterSet_fault (rd : SReg) : (s.afterSet rd).fault = s.fault := rfl
@[simp] theorem afterAnswer_flags (r : BitVec s.busWidth) : (s.afterAnswer r).flags = s.flags := rfl
@[simp] theorem afterAnswer_fault (r : BitVec s.busWidth) : (s.afterAnswer r).fault = s.fault := rfl

end Ends

/-! ## The invariant on FLAGS and FAULT -/

/-- The invariant speaks of `FLAGS` and `FAULT` alone. -/
theorem State.Inv.of_eq {s t : State} (hs : s.Inv) (hflags : t.flags = s.flags) (hfault : t.fault = s.fault) :
    t.Inv where
  dir_ovf := by rw [hflags]; exact hs.dir_ovf
  fault_cause := by rw [hfault]; exact hs.fault_cause
  cause_le := by rw [hfault]; exact hs.cause_le

/-- `FLAGS` and `FAULT` at their reset values have the invariant. -/
theorem inv_of_cleared {s : State} (hflags : s.flags = ⟨false, false⟩) (hfault : s.fault = ⟨false, 0#3⟩) :
    s.Inv where
  dir_ovf := by rw [hflags]; exact id
  fault_cause := by simp [hfault]
  cause_le := by simp [hfault]

theorem afterFault_inv {s : State} (hs : s.Inv) (c : Cause) : (s.afterFault c.code).Inv where
  dir_ovf := hs.dir_ovf
  fault_cause := ⟨nofun, fun h => absurd h c.code_ne_zero⟩
  cause_le := c.code_le_four

theorem afterArith_inv {s : State} (hs : s.Inv) (sg : Sg) (rd : SReg) (res : Int) {v d : Bool}
    (hdv : d = true → v = true) : (s.afterArith sg rd res v d).Inv where
  dir_ovf := hdv
  fault_cause := hs.fault_cause
  cause_le := hs.cause_le

/-- Every end of a command keeps the invariant: a fault sets `F` with one of the four causes, an arithmetic result
writes the detector's flags, and the other ends write neither register. -/
theorem CommandEnd.keeps_inv {s t : State} (h : CommandEnd s t) (hs : s.Inv) : t.Inv := by
  cases h with
  | fault c => exact afterFault_inv hs c
  | arith op sg rd x y res => exact afterArith_inv hs sg rd res detect_ovf_of_dir
  | wide sg rh rd p => exact hs.of_eq (completeWide_flags ..) (completeWide_fault ..)
  | set rd => exact hs.of_eq (afterSet_flags ..) (afterSet_fault ..)
  | answer r => exact hs.of_eq (afterAnswer_flags ..) (afterAnswer_fault ..)

/-! ## How each command ends -/

/-- How a command `i` ends from `s`, named by its own operation and destinations: it is ignored, or faults, or
completes. An arithmetic command then writes its destination, with the detector's flags for its own operation and
operands; a wide multiply and SET write their destinations only, a read writes nothing. This refines `CommandEnd`,
which forgets the command. -/
inductive ExecEnd (i : Instr) (s : State) : State → Prop
  | ignored (hf : s.fault.f = true) : ExecEnd i s (s.afterAnswer 0)
  | fault (hf : s.fault.f = false) (c : Cause) : ExecEnd i s (s.afterFault c.code)
  | arith (hf : s.fault.f = false) {op : ArithOp} {sg : Sg} {x y : Source} {rd : SReg}
      (hop : i.arith? = some (op, sg, x, y)) (hw : i.writes = [rd]) (res : Int) :
      ExecEnd i s
        (s.afterArith sg rd res (detect op sg s.bits (s.xVal sg x) (s.yVal sg y)).ovf
          (detect op sg s.bits (s.xVal sg x) (s.yVal sg y)).dir)
  | wide (hf : s.fault.f = false) {rh rd : SReg} (hop : i.arith? = none) (hw : i.writes = [rd, rh]) (sg : Sg)
      (p : Halves s.bits) : ExecEnd i s (s.completeWide sg rh rd p)
  | set (hf : s.fault.f = false) {rd : SReg} (hop : i.arith? = none) (hw : i.writes = [rd]) :
      ExecEnd i s (s.afterSet rd)
  | read (hf : s.fault.f = false) (hop : i.arith? = none) (r : BitVec s.busWidth) :
      ExecEnd i s (s.afterAnswer r)

/-- The frame of a command adds one end only, the ignored one. -/
theorem command_execEnd {i : Instr} {s e : State} (he : s.fault.f = false → ExecEnd i s e) :
    ∃ t, s.command e = .next t ∧ ExecEnd i s t := by
  cases hf : s.fault.f with
  | true => exact ⟨_, command_of_faulted s e hf, .ignored hf⟩
  | false => exact ⟨e, command_of_good s e hf, he hf⟩

theorem arith_execEnd {i : Instr} (s : State) {op : ArithOp} {sg : Sg} {rd : SReg} {x y : Source}
    {unit : Nat → Int → Int → Except Cause ArithOut} (hop : i.arith? = some (op, sg, x, y))
    (hw : i.writes = [rd]) (hunit : UnitDetects op sg unit) :
    ∃ t, s.arith sg rd x y unit = .next t ∧ ExecEnd i s t := by
  refine ⟨_, arith_eq s sg rd x y unit, ?_⟩
  cases hf : s.fault.f with
  | true => exact .ignored hf
  | false =>
    cases s.rangeFault sg x y with
    | some c => exact .fault hf c
    | none =>
      cases ho : unit s.bits (s.xVal sg x) (s.yVal sg y) with
      | error c => simpa [ho] using ExecEnd.fault hf c
      | ok o =>
        obtain ⟨res, rfl⟩ := hunit _ _ _ o ho
        simpa [ho, detected] using ExecEnd.arith hf hop hw res

theorem wide_execEnd {i : Instr} (s : State) {sg : Sg} {rh rd : SReg} {x y : Source} (hop : i.arith? = none)
    (hw : i.writes = [rd, rh]) : ∃ t, s.wide sg rh rd x y = .next t ∧ ExecEnd i s t := by
  refine ⟨_, wide_eq s sg rh rd x y, ?_⟩
  cases hf : s.fault.f with
  | true => exact .ignored hf
  | false =>
    by_cases heq : rh = rd
    · simpa [heq, Cause.code] using ExecEnd.fault hf .illegal
    · cases s.rangeFault sg x y with
      | some c => simpa [heq] using ExecEnd.fault hf c
      | none => simpa [heq] using ExecEnd.wide hf hop hw sg _

/-- Every command answers a next state, at one of its own ends. -/
theorem exec_execEnd (i : Instr) (s : State) : ∃ t, exec i s = .next t ∧ ExecEnd i s t := by
  cases i with
  | addu rd x y => exact arith_execEnd s rfl rfl (saturatingAdder_detects .u)
  | adds rd x y => exact arith_execEnd s rfl rfl (saturatingAdder_detects .s)
  | subu rd x y => exact arith_execEnd s rfl rfl (saturatingSubtractor_detects .u)
  | subs rd x y => exact arith_execEnd s rfl rfl (saturatingSubtractor_detects .s)
  | mulu rd x y => exact arith_execEnd s rfl rfl (saturatingMultiplier_detects .u)
  | muls rd x y => exact arith_execEnd s rfl rfl (saturatingMultiplier_detects .s)
  | divu rd x y => exact arith_execEnd s rfl rfl (saturatingDivider_detects .u)
  | divs rd x y => exact arith_execEnd s rfl rfl (saturatingDivider_detects .s)
  | wmulu rh rd x y => exact wide_execEnd s rfl rfl
  | wmuls rh rd x y => exact wide_execEnd s rfl rfl
  | set rd => exact command_execEnd fun hf => .set hf rfl rfl
  | getu ra => exact command_execEnd fun hf => .read hf rfl _
  | gets ra => exact command_execEnd fun hf => .read hf rfl _

/-- A next state that `exec` answers is one of the command's ends. -/
theorem execEnd_of_exec {i : Instr} {s t : State} (h : exec i s = .next t) : ExecEnd i s t := by
  obtain ⟨u, hu, hend⟩ := exec_execEnd i s
  rw [hu] at h
  cases h
  exact hend

/-- An illegal word, faulting or ignored, leaves `FLAGS` alone. -/
theorem execIllegal_flags {s t : State} (h : execIllegal s = .next t) : t.flags = s.flags := by
  cases hf : s.fault.f with
  | true => cases (command_of_faulted s _ hf).symm.trans h; rfl
  | false => cases (command_of_good s _ hf).symm.trans h; rfl

/-! ## Two steps: SET, then a read -/

theorem run_succ_of_next {s t : State} (k : Nat) (h : step s = .next t) :
    Sys2Proof.core.run (k + 1) s = Sys2Proof.core.run k t := by
  have hcore : Sys2Proof.core.step s = .next t := h
  simp only [Host.Core.run, hcore]

/-- A command presented whose word decodes to `i` and which `i` completes is one step. -/
theorem step_completes {s e : State} {cw : CmdWord} {i : Instr} (xi yi : BitVec s.busWidth)
    (rest : List (HostEvent s.busWidth)) (hin : s.inputs = .command cw xi yi :: rest) (hd : decode cw = .ok i)
    (hf : s.fault.f = false) (he : exec i (s.taking rest xi yi) = (s.taking rest xi yi).command e) :
    step s = .next e := by
  rw [step_of_legal s xi yi rest hin hd, he]
  exact command_of_good _ e hf

theorem decode_encode_set (rd : SReg) : decode (encode (.set rd)) = .ok (.set rd) := by
  revert rd; decide

theorem decode_encode_getu (ra : SReg) : decode (encode (.getu ra)) = .ok (.getu ra) := by
  revert ra; decide

theorem decode_encode_gets (ra : SReg) : decode (encode (.gets ra)) = .ok (.gets ra) := by
  revert ra; decide

theorem afterSet_sreg_self (s : State) (rd : SReg) : (s.afterSet rd).sreg[rd] = s.xi.setWidth s.bits :=
  readReg_writeReg_self s rd _

/-- `i` is a read of the register `r` under the view `sg` (40_foundation_scalar.md R82, R83). -/
def Reads (i : Instr) (sg : Sg) (r : SReg) : Prop :=
  decode (encode i) = .ok i ∧ ∀ s : State, exec i s = s.command (s.afterAnswer (ext s.busWidth sg s.sreg[r]))

theorem getu_reads (r : SReg) : Reads (.getu r) .u r := ⟨decode_encode_getu r, fun s => exec_getu s r⟩

theorem gets_reads (r : SReg) : Reads (.gets r) .s r := ⟨decode_encode_gets r, fun s => exec_gets s r⟩

/-- A read presented in a state that is not faulted answers the register under its view. -/
theorem step_of_read {s : State} {i : Instr} {sg : Sg} {r : SReg} (xi yi : BitVec s.busWidth)
    (rest : List (HostEvent s.busWidth)) (hi : Reads i sg r) (hf : s.fault.f = false)
    (hin : s.inputs = .command (encode i) xi yi :: rest) :
    ∃ (t : State) (rsp : Response t.busWidth), step s = .next t ∧ t.responses.getLast? = some rsp ∧
      rsp.r.toNat = (ext s.busWidth sg s.sreg[r]).toNat := by
  obtain ⟨hdec, hexec⟩ := hi
  exact ⟨(s.taking rest xi yi).afterAnswer (ext s.busWidth sg s.sreg[r]), _,
    step_completes xi yi rest hin hdec hf (hexec _), List.getLast?_concat, rfl⟩

/-- A SET followed by a read of the same register answers the low bits of the immediate under the read's view. -/
theorem set_then_read {s : State} {rd : SReg} {xi yi xi' yi' : BitVec s.busWidth}
    {rest : List (HostEvent s.busWidth)} {sg : Sg} {i : Instr} (hi : Reads i sg rd) (hf : s.fault.f = false)
    (hin : s.inputs = .command (encode (.set rd)) xi yi :: .command (encode i) xi' yi' :: rest) :
    ∃ (t : State) (rsp : Response t.busWidth),
      Sys2Proof.core.run 2 s = (.next t : Result) ∧ t.responses.getLast? = some rsp ∧
      rsp.r.toNat = (ext s.busWidth sg (trunc s.bits (uval xi))).toNat := by
  have hset := step_completes xi yi _ hin (decode_encode_set rd) hf (exec_set _ rd)
  obtain ⟨t, rsp, hget, hlast, hrsp⟩ :=
    step_of_read (s := (s.taking (.command (encode i) xi' yi' :: rest) xi yi).afterSet rd) xi' yi' rest hi hf rfl
  refine ⟨t, rsp, ?_, hlast, hrsp.trans ?_⟩
  · rw [run_succ_of_next 1 hset, run_succ_of_next 0 hget]; rfl
  · rw [afterSet_sreg_self, trunc_uval_eq_setWidth]; rfl

/-! ## The settled statements -/

/-- Settles O40, by the cases of a step: an idle step changes nothing, a reset clears `FLAGS` and `FAULT`, and every
end of a command keeps the invariant. -/
theorem everyStepKeepsFlagAndFaultInvariant : Obligations.EveryStepKeepsFlagAndFaultInvariant := by
  intro s t hs h
  obtain ⟨-, -, rfl⟩ | ⟨rest, -, rfl⟩ | ⟨cw, xi, yi, rest, -, hend⟩ := step_cases h
  · exact hs
  · exact inv_of_cleared rfl rfl
  · exact hend.keeps_inv (hs.of_eq (taking_flags ..) (taking_fault ..))

/-- Settles O41: reset clears `FLAGS` and `FAULT`. -/
theorem resetHasFlagAndFaultInvariant : Obligations.ResetHasFlagAndFaultInvariant :=
  ⟨inv_of_cleared rfl rfl, fun _ => inv_of_cleared rfl rfl⟩

/-- Settles O20: every `N`-bit pattern is in range under either view. -/
theorem registerValueIsInRange : Obligations.RegisterValueIsInRange :=
  fun s sg i => val_inRange (width_bits_pos s.width) sg s.sreg[i]

/-- Settles O26, by the ends of the command. -/
theorem commandsWriteOnlyTheirDestinations : Obligations.CommandsWriteOnlyTheirDestinations := by
  intro i s
  obtain ⟨t, ht, hend⟩ := exec_execEnd i s
  rw [ht]
  cases hend with
  | ignored hf => exact ⟨_, _, _, _, rfl, fun _ _ => rfl, fun _ => ⟨rfl, rfl⟩, fun _ => rfl⟩
  | fault hf c => exact ⟨_, _, _, _, rfl, fun _ _ => rfl, fun _ => ⟨rfl, rfl⟩, fun _ => rfl⟩
  | @arith hf op sg x y rd hop hw res =>
    refine ⟨_, _, _, _, rfl, fun j hj => ?_, by simp [hf], by simp [hop]⟩
    have hne : rd ≠ j := ne_of_mem_of_not_mem (by simp [hw]) hj
    exact readReg_writeReg_of_ne s rd j _ hne
  | @wide hf rh rd hop hw sg p =>
    refine ⟨_, s.flags, s.fault, _, rfl, fun j hj => ?_, by simp [hf], fun _ => rfl⟩
    have hlo : rd ≠ j := ne_of_mem_of_not_mem (by simp [hw]) hj
    have hhi : rh ≠ j := ne_of_mem_of_not_mem (by simp [hw]) hj
    exact (readReg_writeReg_of_ne (s.writeReg rd p.lo) rh j _ hhi).trans (readReg_writeReg_of_ne s rd j _ hlo)
  | @set hf rd hop hw =>
    refine ⟨_, _, _, _, rfl, fun j hj => ?_, by simp [hf], fun _ => rfl⟩
    have hne : rd ≠ j := ne_of_mem_of_not_mem (by simp [hw]) hj
    exact readReg_writeReg_of_ne s rd j _ hne
  | read hf hop r => exact ⟨_, _, _, _, rfl, fun _ _ => rfl, fun _ => ⟨rfl, rfl⟩, fun _ => rfl⟩

/-- Settles O33, by the ends of the command: only the arithmetic one writes `FLAGS`, with the detector's outputs for
the command's own operation. -/
theorem flagsFollowTheDetector : Obligations.FlagsFollowTheDetector := by
  refine ⟨fun s t cw xi yi rest e hin hd h => ?_, fun i s t h => ?_⟩
  · rw [step_of_illegal s xi yi rest hin hd] at h
    exact (execIllegal_flags h).trans (taking_flags ..)
  · cases execEnd_of_exec h with
    | ignored hf => cases i.arith? <;> simp [hf]
    | fault hf c => cases i.arith? <;> simp
    | arith hf hop hw res => simp [hop, hf]
    | wide hf hop hw sg p => simp [hop]
    | set hf hop hw => simp [hop]
    | read hf hop r => simp [hop]

/-- Settles O46: the read answers the register the SET has written. -/
theorem setThenReadUnderEitherView : Obligations.SetThenReadUnderEitherView := by
  intro s rd xi yi xi' yi' rest sg hf hin
  cases sg with
  | u => exact set_then_read (getu_reads rd) hf hin
  | s => exact set_then_read (gets_reads rd) hf hin

end Sys2Proof.Machine
end

section
/-! The encoding statements (30_encoding.md R53 to R60). A word with its reserved bits zero is packed from its
fields, an operand form is read back from its flag and field, and so each format decodes exactly the words it packs.
`OpcodeRow` says once which format each opcode has; the statements are read off it. -/

namespace Sys2Proof

/-! ## The fields of a word -/

theorem fieldOp_toNat (cw : CmdWord) : (fieldOp cw).toNat = cw.toNat % 16 := by simp [fieldOp]
theorem fieldRd_val (cw : CmdWord) : (fieldRd cw).val = cw.toNat / 2 ^ 4 % 4 := by
  simp [fieldRd, Nat.shiftRight_eq_div_pow]
theorem fieldRa_val (cw : CmdWord) : (fieldRa cw).val = cw.toNat / 2 ^ 6 % 4 := by
  simp [fieldRa, Nat.shiftRight_eq_div_pow]
theorem fieldRb_val (cw : CmdWord) : (fieldRb cw).val = cw.toNat / 2 ^ 8 % 4 := by
  simp [fieldRb, Nat.shiftRight_eq_div_pow]
theorem fieldRh_val (cw : CmdWord) : (fieldRh cw).val = cw.toNat / 2 ^ 12 % 4 := by
  simp [fieldRh, Nat.shiftRight_eq_div_pow]
theorem fieldZ_toNat (cw : CmdWord) : (fieldZ cw).toNat = cw.toNat / 2 ^ 14 % 4 := by
  simp [fieldZ, Nat.shiftRight_eq_div_pow]
theorem fieldIa_toNat (cw : CmdWord) : (fieldIa cw).toNat = cw.toNat / 2 ^ 10 % 2 := Nat.toNat_testBit ..
theorem fieldIb_toNat (cw : CmdWord) : (fieldIb cw).toNat = cw.toNat / 2 ^ 11 % 2 := Nat.toNat_testBit ..

@[simp] theorem regBits_inj {a b : SReg} : regBits a = regBits b ↔ a = b := by revert a b; decide

theorem zero_eq_regBits_iff {r : SReg} : 0#2 = regBits r ↔ r = 0 := by revert r; decide

theorem toNat_append_eq_add {m n : Nat} (a : BitVec m) (b : BitVec n) :
    (a ++ b).toNat = a.toNat * 2 ^ n + b.toNat := by
  rw [BitVec.toNat_append, ← Nat.shiftLeft_add_eq_or_of_lt b.isLt, Nat.shiftLeft_eq]

theorem packWord_toNat (rh : BitVec 2) (ib ia : BitVec 1) (rb ra rd : BitVec 2) (op : BitVec 4) :
    (packWord rh ib ia rb ra rd op).toNat = rh.toNat * 2 ^ 12 + ib.toNat * 2 ^ 11 + ia.toNat * 2 ^ 10 +
      rb.toNat * 2 ^ 8 + ra.toNat * 2 ^ 6 + rd.toNat * 2 ^ 4 + op.toNat := by
  simp only [packWord, toNat_append_eq_add, BitVec.toNat_zero]
  omega

/-- A word is packed from its fields (30_encoding.md R53), and from no others. -/
theorem packWord_eq_iff {rh : BitVec 2} {ib ia : BitVec 1} {rb ra rd : BitVec 2} {op : BitVec 4} {cw : CmdWord} :
    packWord rh ib ia rb ra rd op = cw ↔
      fieldZ cw = 0 ∧ rh = regBits (fieldRh cw) ∧ ib = BitVec.ofBool (fieldIb cw) ∧
        ia = BitVec.ofBool (fieldIa cw) ∧ rb = regBits (fieldRb cw) ∧ ra = regBits (fieldRa cw) ∧
        rd = regBits (fieldRd cw) ∧ op = fieldOp cw := by
  simp only [← BitVec.toNat_inj, packWord_toNat, fieldZ_toNat, fieldOp_toNat, regBits, BitVec.toNat_ofFin,
    fieldRh_val, fieldRb_val, fieldRa_val, fieldRd_val, BitVec.toNat_ofBool, fieldIa_toNat, fieldIb_toNat,
    BitVec.ofNat_eq_ofNat, BitVec.toNat_ofNat]
  omega

theorem zero_eq_ofBool_iff {b : Bool} : 0#1 = BitVec.ofBool b ↔ b = false := by revert b; decide

theorem one_eq_ofBool_iff {b : Bool} : 1#1 = BitVec.ofBool b ↔ b = true := by revert b; decide

/-! ## A check in the decoder -/

section Checks

variable {α : Type} {p : Prop} [Decidable p] {why : Illegal} {r : Except Illegal α}

theorem check_eq_ok_iff {a : α} : (if p then .error why else r) = .ok a ↔ ¬p ∧ r = .ok a := by
  by_cases h : p <;> simp [h]

theorem check_illegal_iff : (∃ e, (if p then .error why else r) = .error e) ↔ p ∨ ∃ e, r = .error e := by
  by_cases h : p <;> simp [h]

end Checks

/-! ## The operand forms -/

/-- An operand form is read back from its flag and its field, and from no others (30_encoding.md R55). -/
theorem decodeSource_eq_ok_iff {isImm : Bool} {r : SReg} {why : Illegal} {x : Source} :
    decodeSource isImm r why = .ok x ↔ x.flag = BitVec.ofBool isImm ∧ x.field = regBits r := by
  cases isImm with
  | true =>
    by_cases hr : r = 0 <;> cases x <;> simp [decodeSource, Source.flag, Source.field, hr, zero_eq_regBits_iff]
  | false => cases x <;> simp [decodeSource, Source.flag, Source.field, eq_comm]

theorem decodeSource_illegal_iff {isImm : Bool} {r : SReg} {why : Illegal} :
    (∃ e, decodeSource isImm r why = .error e) ↔ isImm = true ∧ r ≠ 0 := by
  cases isImm with
  | true => by_cases hr : r = 0 <;> simp [decodeSource, hr]
  | false => simp [decodeSource]

theorem decodeOperands_eq_ok_iff {cw : CmdWord} {k : Source → Source → Instr} {i : Instr} :
    decodeOperands cw k = .ok i ↔
      ∃ x y, decodeSource (fieldIa cw) (fieldRa cw) .unusedRa = .ok x ∧
        decodeSource (fieldIb cw) (fieldRb cw) .unusedRb = .ok y ∧ k x y = i := by
  unfold decodeOperands
  cases decodeSource (fieldIa cw) (fieldRa cw) .unusedRa with
  | error e => simp
  | ok x => cases decodeSource (fieldIb cw) (fieldRb cw) .unusedRb <;> simp

theorem decodeOperands_illegal_iff {cw : CmdWord} {k : Source → Source → Instr} :
    (∃ e, decodeOperands cw k = .error e) ↔
      (fieldIa cw = true ∧ fieldRa cw ≠ 0) ∨ (fieldIb cw = true ∧ fieldRb cw ≠ 0) := by
  rw [← decodeSource_illegal_iff (why := .unusedRa), ← decodeSource_illegal_iff (why := .unusedRb)]
  unfold decodeOperands
  cases decodeSource (fieldIa cw) (fieldRa cw) .unusedRa with
  | error e => simp
  | ok x => cases decodeSource (fieldIb cw) (fieldRb cw) .unusedRb <;> simp

/-! ## The formats: each decodes exactly the words it packs (30_encoding.md R54) -/

section Formats

variable {cw : CmdWord} {i : Instr}

theorem packOperands_eq_iff {op : BitVec 4} {rh rd : BitVec 2} {x y : Source} :
    packOperands op rh rd x y = cw ↔
      fieldZ cw = 0 ∧ op = fieldOp cw ∧ rh = regBits (fieldRh cw) ∧ rd = regBits (fieldRd cw) ∧
        decodeSource (fieldIa cw) (fieldRa cw) .unusedRa = .ok x ∧
        decodeSource (fieldIb cw) (fieldRb cw) .unusedRb = .ok y := by
  simp only [packOperands, packWord_eq_iff, decodeSource_eq_ok_iff]
  tauto

theorem decodeA_eq_ok_iff {k : SReg → Source → Source → Instr} (hz : fieldZ cw = 0) :
    decodeA cw k = .ok i ↔
      ∃ rd x y, packOperands (fieldOp cw) 0 (regBits rd) x y = cw ∧ k rd x y = i := by
  rw [decodeA, check_eq_ok_iff, decodeOperands_eq_ok_iff]
  simp [packOperands_eq_iff, zero_eq_regBits_iff, hz, and_assoc]

theorem decodeM_eq_ok_iff {k : SReg → SReg → Source → Source → Instr} (hz : fieldZ cw = 0) :
    decodeM cw k = .ok i ↔
      ∃ rh rd x y,
        rh ≠ rd ∧ packOperands (fieldOp cw) (regBits rh) (regBits rd) x y = cw ∧ k rh rd x y = i := by
  rw [decodeM, check_eq_ok_iff, decodeOperands_eq_ok_iff]
  simp [packOperands_eq_iff, hz, and_assoc]

theorem decodeC_eq_ok_iff {k : SReg → Instr} (hz : fieldZ cw = 0) :
    decodeC cw k = .ok i ↔ ∃ rd, packWord 0 0 1 0 0 (regBits rd) (fieldOp cw) = cw ∧ k rd = i := by
  rw [decodeC, check_eq_ok_iff, check_eq_ok_iff]
  simp only [packWord_eq_iff, hz, zero_eq_regBits_iff, zero_eq_ofBool_iff, one_eq_ofBool_iff, regBits_inj, ne_eq,
    Decidable.not_not, not_or, Bool.not_eq_false, Bool.not_eq_true, Except.ok.injEq, BitVec.ofNat_eq_ofNat, and_true,
    true_and, ↓existsAndEq]
  tauto

theorem decodeG_eq_ok_iff {k : SReg → Instr} (hz : fieldZ cw = 0) :
    decodeG cw k = .ok i ↔ ∃ ra, packWord 0 0 0 0 (regBits ra) 0 (fieldOp cw) = cw ∧ k ra = i := by
  rw [decodeG, check_eq_ok_iff, check_eq_ok_iff]
  simp only [packWord_eq_iff, hz, zero_eq_regBits_iff, zero_eq_ofBool_iff, regBits_inj, ne_eq, Decidable.not_not,
    not_or, Bool.not_eq_true, Except.ok.injEq, BitVec.ofNat_eq_ofNat, and_true, true_and, ↓existsAndEq]
  tauto

theorem decodeA_illegal_iff {k : SReg → Source → Source → Instr} :
    (∃ e, decodeA cw k = .error e) ↔
      fieldRh cw ≠ 0 ∨ (fieldIa cw = true ∧ fieldRa cw ≠ 0) ∨ (fieldIb cw = true ∧ fieldRb cw ≠ 0) := by
  rw [decodeA, check_illegal_iff, decodeOperands_illegal_iff]

theorem decodeM_illegal_iff {k : SReg → SReg → Source → Source → Instr} :
    (∃ e, decodeM cw k = .error e) ↔
      fieldRh cw = fieldRd cw ∨ (fieldIa cw = true ∧ fieldRa cw ≠ 0) ∨
        (fieldIb cw = true ∧ fieldRb cw ≠ 0) := by
  rw [decodeM, check_illegal_iff, decodeOperands_illegal_iff]

theorem decodeC_illegal_iff {k : SReg → Instr} :
    (∃ e, decodeC cw k = .error e) ↔
      fieldRh cw ≠ 0 ∨ fieldIa cw = false ∨ fieldIb cw = true ∨ fieldRa cw ≠ 0 ∨ fieldRb cw ≠ 0 := by
  rw [decodeC, check_illegal_iff, check_illegal_iff]; simp

theorem decodeG_illegal_iff {k : SReg → Instr} :
    (∃ e, decodeG cw k = .error e) ↔
      fieldRh cw ≠ 0 ∨ fieldRd cw ≠ 0 ∨ fieldRb cw ≠ 0 ∨ fieldIa cw = true ∨ fieldIb cw = true := by
  rw [decodeG, check_illegal_iff, check_illegal_iff]; simp

end Formats

/-! ## The opcode map -/

/-- What `decodeOp` answers for a word with opcode `op`, by format (30_encoding.md R54, R56): it decodes in the
format, towards a command that encodes with the same opcode in the same format, or the opcode is reserved. -/
inductive OpcodeRow (cw : CmdWord) (op : BitVec 4) : Except Illegal Instr → Prop
  | formatA (k : SReg → Source → Source → Instr) (hop : op.toNat ≤ 7)
      (henc : ∀ rd x y, encode (k rd x y) = packOperands op 0 (regBits rd) x y)
      (hwf : ∀ rd x y, (k rd x y).wellFormed = true) : OpcodeRow cw op (decodeA cw k)
  | formatM (k : SReg → SReg → Source → Source → Instr) (hop : op.toNat = 8 ∨ op.toNat = 9)
      (henc : ∀ rh rd x y, encode (k rh rd x y) = packOperands op (regBits rh) (regBits rd) x y)
      (hwf : ∀ rh rd x y, (k rh rd x y).wellFormed = (rh != rd)) : OpcodeRow cw op (decodeM cw k)
  | formatC (k : SReg → Instr) (hop : op.toNat = 10)
      (henc : ∀ rd, encode (k rd) = packWord 0 0 1 0 0 (regBits rd) op)
      (hwf : ∀ rd, (k rd).wellFormed = true) : OpcodeRow cw op (decodeC cw k)
  | formatG (k : SReg → Instr) (hop : op.toNat = 12 ∨ op.toNat = 13)
      (henc : ∀ ra, encode (k ra) = packWord 0 0 0 0 (regBits ra) 0 op)
      (hwf : ∀ ra, (k ra).wellFormed = true) : OpcodeRow cw op (decodeG cw k)
  | reserved (hop : op.toNat = 11 ∨ op.toNat = 14 ∨ op.toNat = 15) :
      OpcodeRow cw op (.error .reservedOpcode)

theorem fieldOp_eq_ofNat {cw : CmdWord} {n : Nat} (h : (fieldOp cw).toNat = n) : fieldOp cw = BitVec.ofNat 4 n := by
  rw [← h, BitVec.ofNat_toNat, BitVec.setWidth_eq]

theorem decodeOp_row (cw : CmdWord) : OpcodeRow cw (fieldOp cw) (decodeOp cw) := by
  unfold decodeOp
  split <;> try (rename_i h; rw [fieldOp_eq_ofNat h])
  case h_1 => exact .formatA .addu (by decide) (fun _ _ _ => rfl) (fun _ _ _ => rfl)
  case h_2 => exact .formatA .adds (by decide) (fun _ _ _ => rfl) (fun _ _ _ => rfl)
  case h_3 => exact .formatA .subu (by decide) (fun _ _ _ => rfl) (fun _ _ _ => rfl)
  case h_4 => exact .formatA .subs (by decide) (fun _ _ _ => rfl) (fun _ _ _ => rfl)
  case h_5 => exact .formatA .mulu (by decide) (fun _ _ _ => rfl) (fun _ _ _ => rfl)
  case h_6 => exact .formatA .muls (by decide) (fun _ _ _ => rfl) (fun _ _ _ => rfl)
  case h_7 => exact .formatA .divu (by decide) (fun _ _ _ => rfl) (fun _ _ _ => rfl)
  case h_8 => exact .formatA .divs (by decide) (fun _ _ _ => rfl) (fun _ _ _ => rfl)
  case h_9 => exact .formatM .wmulu (by decide) (fun _ _ _ _ => rfl) (fun _ _ _ _ => rfl)
  case h_10 => exact .formatM .wmuls (by decide) (fun _ _ _ _ => rfl) (fun _ _ _ _ => rfl)
  case h_11 => exact .formatC .set (by decide) (fun _ => rfl) (fun _ => rfl)
  case h_12 => exact .formatG .getu (by decide) (fun _ => rfl) (fun _ => rfl)
  case h_13 => exact .formatG .gets (by decide) (fun _ => rfl) (fun _ => rfl)
  case h_14 =>
    have := (fieldOp cw).isLt
    simp only [imp_false] at *
    exact .reserved (by omega)

theorem encode_of_row {cw : CmdWord} {r : Except Illegal Instr} {i : Instr} (hrow : OpcodeRow cw (fieldOp cw) r)
    (hz : fieldZ cw = 0) (h : r = .ok i) : encode i = cw ∧ i.wellFormed = true := by
  cases hrow with
  | formatA k hop henc hwf =>
    obtain ⟨rd, x, y, hcw, rfl⟩ := (decodeA_eq_ok_iff hz).mp h
    exact ⟨(henc rd x y).trans hcw, hwf rd x y⟩
  | formatM k hop henc hwf =>
    obtain ⟨rh, rd, x, y, hne, hcw, rfl⟩ := (decodeM_eq_ok_iff hz).mp h
    exact ⟨(henc rh rd x y).trans hcw, by simp [hwf, hne]⟩
  | formatC k hop henc hwf =>
    obtain ⟨rd, hcw, rfl⟩ := (decodeC_eq_ok_iff hz).mp h
    exact ⟨(henc rd).trans hcw, hwf rd⟩
  | formatG k hop henc hwf =>
    obtain ⟨ra, hcw, rfl⟩ := (decodeG_eq_ok_iff hz).mp h
    exact ⟨(henc ra).trans hcw, hwf ra⟩
  | reserved hop => cases h

/-! ## Decoding -/

theorem decode_eq_ok_iff {cw : CmdWord} {i : Instr} : decode cw = .ok i ↔ fieldZ cw = 0 ∧ decodeOp cw = .ok i := by
  rw [decode, check_eq_ok_iff, not_ne_iff]

theorem decode_illegal_iff {cw : CmdWord} :
    (∃ e, decode cw = .error e) ↔ fieldZ cw ≠ 0 ∨ ∃ e, decodeOp cw = .error e := check_illegal_iff

/-- The word of a format A command decodes to it, once its opcode leads `decodeOp` to its constructor. -/
theorem decode_encode_formatA {k : SReg → Source → Source → Instr} {rd : SReg} {x y : Source}
    (hi : Laws.EncodeOpcode.Statement (k rd x y))
    (hpack : encode (k rd x y) = packOperands (Laws.opcode (k rd x y)) 0 (regBits rd) x y)
    (hrow : ∀ cw, fieldOp cw = Laws.opcode (k rd x y) → decodeOp cw = decodeA cw k) :
    decode (encode (k rd x y)) = .ok (k rd x y) := by
  obtain ⟨hop, hz⟩ := hi
  rw [decode_eq_ok_iff, hrow _ hop, decodeA_eq_ok_iff hz, hop]
  exact ⟨hz, rd, x, y, hpack.symm, rfl⟩

/-- The word of a format M command decodes to it if its destinations differ. -/
theorem decode_encode_formatM {k : SReg → SReg → Source → Source → Instr} {rh rd : SReg} {x y : Source}
    (hne : rh ≠ rd) (hi : Laws.EncodeOpcode.Statement (k rh rd x y))
    (hpack : encode (k rh rd x y) = packOperands (Laws.opcode (k rh rd x y)) (regBits rh) (regBits rd) x y)
    (hrow : ∀ cw, fieldOp cw = Laws.opcode (k rh rd x y) → decodeOp cw = decodeM cw k) :
    decode (encode (k rh rd x y)) = .ok (k rh rd x y) := by
  obtain ⟨hop, hz⟩ := hi
  rw [decode_eq_ok_iff, hrow _ hop, decodeM_eq_ok_iff hz, hop]
  exact ⟨hz, rh, rd, x, y, hne, hpack.symm, rfl⟩

theorem decode_encode {i : Instr} (hwf : i.wellFormed = true) : decode (encode i) = .ok i := by
  cases i with
  | addu rd x y =>
    exact decode_encode_formatA (Laws.EncodeOpcode.addu rd x y) rfl fun _ h => by simp only [decodeOp, h]; rfl
  | adds rd x y =>
    exact decode_encode_formatA (Laws.EncodeOpcode.adds rd x y) rfl fun _ h => by simp only [decodeOp, h]; rfl
  | subu rd x y =>
    exact decode_encode_formatA (Laws.EncodeOpcode.subu rd x y) rfl fun _ h => by simp only [decodeOp, h]; rfl
  | subs rd x y =>
    exact decode_encode_formatA (Laws.EncodeOpcode.subs rd x y) rfl fun _ h => by simp only [decodeOp, h]; rfl
  | mulu rd x y =>
    exact decode_encode_formatA (Laws.EncodeOpcode.mulu rd x y) rfl fun _ h => by simp only [decodeOp, h]; rfl
  | muls rd x y =>
    exact decode_encode_formatA (Laws.EncodeOpcode.muls rd x y) rfl fun _ h => by simp only [decodeOp, h]; rfl
  | divu rd x y =>
    exact decode_encode_formatA (Laws.EncodeOpcode.divu rd x y) rfl fun _ h => by simp only [decodeOp, h]; rfl
  | divs rd x y =>
    exact decode_encode_formatA (Laws.EncodeOpcode.divs rd x y) rfl fun _ h => by simp only [decodeOp, h]; rfl
  | wmulu rh rd x y =>
    exact decode_encode_formatM (bne_iff_ne.mp hwf) (Laws.EncodeOpcode.wmulu rh rd x y) rfl
      fun _ h => by simp only [decodeOp, h]; rfl
  | wmuls rh rd x y =>
    exact decode_encode_formatM (bne_iff_ne.mp hwf) (Laws.EncodeOpcode.wmuls rh rd x y) rfl
      fun _ h => by simp only [decodeOp, h]; rfl
  | set rd => exact Machine.decode_encode_set rd
  | getu ra => exact Machine.decode_encode_getu ra
  | gets ra => exact Machine.decode_encode_gets ra

/-! ## The settled statements -/

/-- Settles O2, by the formats: each decodes the words it packs. -/
theorem decodeOfEncodeIsIdentity : Obligations.DecodeOfEncodeIsIdentity := fun _ => decode_encode

/-- Settles O3, by the row of the word's opcode: a format decodes only the words it packs. -/
theorem legalWordIsTheEncoding : Obligations.LegalWordIsTheEncoding := by
  intro cw i h
  obtain ⟨hz, h⟩ := decode_eq_ok_iff.mp h
  exact encode_of_row (decodeOp_row cw) hz h

/-- Settles O4, by the row of the word's opcode: each format's checks are the items of R60 that speak of it. -/
theorem illegalWordsAreTheEightItems : Obligations.IllegalWordsAreTheEightItems := by
  intro cw
  have hz : fieldZ cw ≠ 0 ↔ cw.toNat / 2 ^ 14 % 4 ≠ 0 := by
    rw [← fieldZ_toNat, ne_eq, ← BitVec.toNat_inj]; rfl
  rw [decode_illegal_iff, hz]
  have hrow := decodeOp_row cw
  generalize decodeOp cw = r at hrow
  simp only [← fieldOp_toNat, ← fieldRd_val, ← fieldRa_val, ← fieldRb_val, ← fieldRh_val, ← fieldIa_toNat,
    ← fieldIb_toNat]
  cases hrow with
  | formatA k hop henc hwf =>
    have hM : ¬((fieldOp cw).toNat = 8 ∨ (fieldOp cw).toNat = 9) := by omega
    have hC : (fieldOp cw).toNat ≠ 10 := by omega
    have hG : ¬((fieldOp cw).toNat = 12 ∨ (fieldOp cw).toNat = 13) := by omega
    have hR : ¬((fieldOp cw).toNat = 11 ∨ (fieldOp cw).toNat = 14 ∨ (fieldOp cw).toNat = 15) := by omega
    rw [decodeA_illegal_iff]
    simp [hop, hM, hC, hG, hR]
  | formatM k hop henc hwf =>
    rw [decodeM_illegal_iff]
    rcases hop with hop | hop <;> simp [hop, Fin.val_inj]
  | formatC k hop henc hwf =>
    rw [decodeC_illegal_iff]
    simp [hop]
  | formatG k hop henc hwf =>
    rw [decodeG_illegal_iff]
    rcases hop with hop | hop <;> simp [hop]
  | reserved hop => simp [hop]

/-- Settles O1: each word is evaluated. -/
theorem exampleWordsDecode : Obligations.ExampleWordsDecode := by
  unfold Obligations.ExampleWordsDecode
  decide

end Sys2Proof
end

section
/-! The statements on a presented command (30_encoding.md R50 to R52, R62, R67): it is decoded and run, it is answered
once, and it reads a port only where it uses the immediate. -/

namespace Sys2Proof.Machine

/-! ## The answer to a command -/

/-- `t` is `s` after a command: registers, `FLAGS` and `FAULT` may differ, and there is one response more, which copies
`FLAGS` and `FAULT` of `t` and has zero data if `t` or `s` is faulted (30_encoding.md R51, R52). -/
def AnsweredOnce (s t : State) : Prop :=
  ∃ (regs : Vector (BitVec s.width.bits) 4) (flags : Flags) (fault : FaultLatch) (r h : BitVec s.busWidth),
    t = { s with
      sreg := regs
      flags := flags
      fault := fault
      responses := s.responses ++ [⟨r, h, flags.v, flags.d, fault.f, fault.cause⟩] } ∧
    ((fault.f = true ∨ s.fault.f = true) → r = 0 ∧ h = 0)

theorem afterAnswer_zero_answeredOnce (s : State) : AnsweredOnce s (s.afterAnswer 0) :=
  ⟨_, _, _, _, _, rfl, fun _ => ⟨rfl, rfl⟩⟩

theorem afterFault_answeredOnce (s : State) (c : BitVec 3) : AnsweredOnce s (s.afterFault c) :=
  ⟨_, _, _, _, _, rfl, fun _ => ⟨rfl, rfl⟩⟩

theorem ExecEnd.answeredOnce {i : Instr} {s t : State} (h : ExecEnd i s t) : AnsweredOnce s t := by
  cases h with
  | ignored hf => exact afterAnswer_zero_answeredOnce s
  | fault hf c => exact afterFault_answeredOnce s c.code
  | arith hf hop hw res => exact ⟨_, _, s.fault, _, _, rfl, by simp [hf]⟩
  | wide hf hop hw sg p => exact ⟨_, s.flags, s.fault, _, _, rfl, by simp [hf]⟩
  | set hf hop hw => exact ⟨_, s.flags, s.fault, _, _, rfl, by simp [hf]⟩
  | read hf hop r => exact ⟨s.sreg, s.flags, s.fault, _, _, rfl, by simp [hf]⟩

theorem execIllegal_of_good (s : State) (h : s.fault.f = false) : execIllegal s = .next (s.afterFault 1#3) :=
  command_of_good s _ h

theorem execIllegal_answeredOnce (s : State) : ∃ t, execIllegal s = .next t ∧ AnsweredOnce s t := by
  cases hf : s.fault.f with
  | true => exact ⟨_, command_of_faulted s _ hf, afterAnswer_zero_answeredOnce s⟩
  | false => exact ⟨_, execIllegal_of_good s hf, afterFault_answeredOnce s 1#3⟩

theorem step_answeredOnce (s : State) (cw : CmdWord) (xi yi : BitVec s.busWidth)
    (rest : List (HostEvent s.busWidth)) (h : s.inputs = .command cw xi yi :: rest) :
    ∃ t, step s = .next t ∧ AnsweredOnce (s.taking rest xi yi) t := by
  cases hd : decode cw with
  | ok i =>
    obtain ⟨t, ht, hend⟩ := exec_execEnd i (s.taking rest xi yi)
    exact ⟨t, (step_of_legal s xi yi rest h hd).trans ht, hend.answeredOnce⟩
  | error e => rw [step_of_illegal s xi yi rest h hd]; exact execIllegal_answeredOnce _

/-! ## Ports that are not used (30_encoding.md R67) -/

/-- The state with other patterns on both immediate ports. -/
def State.setPorts (s : State) (a b : BitVec s.busWidth) : State := { s with xi := a, yi := b }

/-- The results `o` of a meaning on `s` and `o'` of one on `s.setPorts a b` are next states that differ in the ports
alone. -/
def SameButPorts (s : State) (a b : BitVec s.busWidth) (o o' : Result) : Prop :=
  ∃ (regs : Vector (BitVec s.width.bits) 4) (flags : Flags) (fault : FaultLatch)
    (resps : List (Response s.busWidth)),
    o = .next { s with sreg := regs, flags := flags, fault := fault, responses := resps } ∧
    o' = .next { s with sreg := regs, flags := flags, fault := fault, responses := resps, xi := a, yi := b }

section Ports

variable (s : State) {a b : BitVec s.busWidth} {x y : Source}

@[simp] theorem setPorts_bits : (s.setPorts a b).bits = s.bits := rfl
@[simp] theorem setPorts_fault : (s.setPorts a b).fault = s.fault := rfl
@[simp] theorem setPorts_xi : (s.setPorts a b).xi = a := rfl
@[simp] theorem setPorts_yi : (s.setPorts a b).yi = b := rfl

theorem xVal_setPorts (sg : Sg) (hx : (x == .imm) = true → a = s.xi) : (s.setPorts a b).xVal sg x = s.xVal sg x := by
  cases x with
  | reg r => rfl
  | imm => cases hx rfl; rfl

theorem yVal_setPorts (sg : Sg) (hy : (y == .imm) = true → b = s.yi) : (s.setPorts a b).yVal sg y = s.yVal sg y := by
  cases y with
  | reg r => rfl
  | imm => cases hy rfl; rfl

theorem rangeFault_setPorts (sg : Sg) (hx : (x == .imm) = true → a = s.xi) (hy : (y == .imm) = true → b = s.yi) :
    (s.setPorts a b).rangeFault sg x y = s.rangeFault sg x y := by
  have hX : x = .imm ∧ ¬InRange sg s.bits (val sg a) ↔ x = .imm ∧ ¬InRange sg s.bits (val sg s.xi) :=
    and_congr_right fun h => by rw [hx (beq_iff_eq.mpr h)]
  have hY : y = .imm ∧ ¬InRange sg s.bits (val sg b) ↔ y = .imm ∧ ¬InRange sg s.bits (val sg s.yi) :=
    and_congr_right fun h => by rw [hy (beq_iff_eq.mpr h)]
  simp only [State.rangeFault, setPorts_bits, setPorts_xi, setPorts_yi, hX, hY]

theorem arith_sameButPorts (sg : Sg) (rd : SReg) (unit : Nat → Int → Int → Except Cause ArithOut)
    (hx : (x == .imm) = true → a = s.xi) (hy : (y == .imm) = true → b = s.yi) :
    SameButPorts s a b (s.arith sg rd x y unit) ((s.setPorts a b).arith sg rd x y unit) := by
  rw [arith_eq, arith_eq, rangeFault_setPorts s sg hx hy, xVal_setPorts s sg hx, yVal_setPorts s sg hy,
    setPorts_fault, setPorts_bits]
  cases s.fault.f with
  | true => exact ⟨_, _, _, _, rfl, rfl⟩
  | false =>
    cases s.rangeFault sg x y with
    | some c => exact ⟨_, _, _, _, rfl, rfl⟩
    | none => cases unit s.bits (s.xVal sg x) (s.yVal sg y) <;> exact ⟨_, _, _, _, rfl, rfl⟩

theorem wide_sameButPorts (sg : Sg) (rh rd : SReg) (hx : (x == .imm) = true → a = s.xi)
    (hy : (y == .imm) = true → b = s.yi) :
    SameButPorts s a b (s.wide sg rh rd x y) ((s.setPorts a b).wide sg rh rd x y) := by
  rw [wide_eq, wide_eq, rangeFault_setPorts s sg hx hy, xVal_setPorts s sg hx, yVal_setPorts s sg hy,
    setPorts_fault]
  cases s.fault.f with
  | true => exact ⟨_, _, _, _, rfl, rfl⟩
  | false =>
    by_cases heq : rh = rd
    · rw [if_pos heq, if_pos heq]; exact ⟨_, _, _, _, rfl, rfl⟩
    · rw [if_neg heq, if_neg heq]; cases s.rangeFault sg x y <;> exact ⟨_, _, _, _, rfl, rfl⟩

/-- The frame of a command, which looks at no port, around effects that differ in the ports alone. -/
theorem command_sameButPorts {e e' : State} (he : SameButPorts s a b (.next e) (.next e')) :
    SameButPorts s a b (s.command e) ((s.setPorts a b).command e') := by
  rw [command_eq, command_eq, setPorts_fault]
  cases s.fault.f with
  | true => exact ⟨_, _, _, _, rfl, rfl⟩
  | false => exact he

end Ports

/-- Two states that differ in ports the command does not use have results that differ in the ports alone. -/
theorem exec_setPorts (i : Instr) (s : State) {a b : BitVec s.busWidth} (hx : i.usesXi = true → a = s.xi)
    (hy : i.usesYi = true → b = s.yi) : SameButPorts s a b (exec i s) (exec i (s.setPorts a b)) := by
  cases i with
  | addu rd x y => exact arith_sameButPorts s .u rd (saturatingAdder .u) hx hy
  | adds rd x y => exact arith_sameButPorts s .s rd (saturatingAdder .s) hx hy
  | subu rd x y => exact arith_sameButPorts s .u rd (saturatingSubtractor .u) hx hy
  | subs rd x y => exact arith_sameButPorts s .s rd (saturatingSubtractor .s) hx hy
  | mulu rd x y => exact arith_sameButPorts s .u rd (saturatingMultiplier .u) hx hy
  | muls rd x y => exact arith_sameButPorts s .s rd (saturatingMultiplier .s) hx hy
  | divu rd x y => exact arith_sameButPorts s .u rd (saturatingDivider .u) hx hy
  | divs rd x y => exact arith_sameButPorts s .s rd (saturatingDivider .s) hx hy
  | wmulu rh rd x y => exact wide_sameButPorts s .u rh rd hx hy
  | wmuls rh rd x y => exact wide_sameButPorts s .s rh rd hx hy
  | set rd => cases hx rfl; exact command_sameButPorts s ⟨_, s.flags, s.fault, _, rfl, rfl⟩
  | getu ra => exact command_sameButPorts s ⟨s.sreg, s.flags, s.fault, _, rfl, rfl⟩
  | gets ra => exact command_sameButPorts s ⟨s.sreg, s.flags, s.fault, _, rfl, rfl⟩

/-! ## The settled statements -/

/-- Settles O25: each end of a command is one answer, and the ends with data are those of a command that completes in a
state that is not faulted. -/
theorem everyCommandIsAnsweredOnce : Obligations.EveryCommandIsAnsweredOnce := by
  intro s cw xi yi rest h
  obtain ⟨t, ht, regs, flags, fault, r, h', rfl, hzero⟩ := step_answeredOnce s cw xi yi rest h
  exact ⟨regs, flags, fault, r, h', ht, hzero⟩

/-- Settles O34: with the unused port changed and the other left as it is, the two results differ in the ports
alone. -/
theorem unusedImmediatesAreIgnored : Obligations.UnusedImmediatesAreIgnored := by
  intro i s t c ht
  constructor
  · intro hx
    obtain ⟨regs, flags, fault, resps, ho, ho'⟩ :=
      exec_setPorts i s (a := c.setWidth s.busWidth) (b := s.yi) (by simp [hx]) (fun _ => rfl)
    cases ht.symm.trans ho
    exact ho'
  · intro hy
    obtain ⟨regs, flags, fault, resps, ho, ho'⟩ :=
      exec_setPorts i s (a := s.xi) (b := c.setWidth s.busWidth) (fun _ => rfl) (by simp [hy])
    cases ht.symm.trans ho
    exact ho'

/-- Settles O21: the step of a presented command with a legal word. -/
theorem stepRunsTheDecodedCommand : Obligations.StepRunsTheDecodedCommand :=
  fun s _ xi yi rest _ => step_of_legal s xi yi rest

/-- Settles O22: the step of a presented command with an illegal word, which raises ILLEGAL. -/
theorem illegalWordRaisesIllegal : Obligations.IllegalWordRaisesIllegal := by
  intro s cw xi yi rest e hin hd hf
  rw [step_of_illegal s xi yi rest hin hd]
  exact execIllegal_of_good _ hf

end Sys2Proof.Machine
end

section
/-! The range check of an immediate as bits (30_encoding.md R58): a pattern is in range exactly when it is the
extension, under the view, of its own low bits; what such an extension's bits are gives the two bit forms. -/

namespace Sys2Proof.Machine

variable {n w : Nat}

theorem setWidth_ext (hw : n ≤ w) (sg : Sg) (b : BitVec n) : (ext w sg b).setWidth n = b := by
  cases sg with
  | u => exact (BitVec.setWidth_setWidth_of_le b hw).trans (BitVec.setWidth_eq b)
  | s =>
    refine BitVec.eq_of_getLsbD_eq fun i hi => ?_
    rw [ext, sext, BitVec.getLsbD_setWidth, BitVec.getLsbD_signExtend]
    simp [hi, hi.trans_le hw]

/-- A pattern is in range exactly when extending its low `n` bits gives it back: an extension has the value of its
`n` bits, and those are always in range. -/
theorem inrange_iff_ext_setWidth (hn : 0 < n) (hw : n ≤ w) (sg : Sg) (p : BitVec w) :
    inrange sg n p = true ↔ ext w sg (p.setWidth n) = p := by
  rw [inrange_iff]
  constructor
  · intro h
    have hp : ext w sg (trunc n (val sg p)) = p := by rw [ext_eq_trunc_val hw, val_trunc hn h, trunc_val]
    rw [← hp, setWidth_ext hw]
  · intro h
    rw [← h, val_ext hw]
    exact val_inRange hn sg _

theorem inrange_of_eq (hn : 0 < n) (h : n = w) (sg : Sg) (p : BitVec w) : inrange sg n p = true := by
  subst h
  exact (inrange_iff sg n p).mpr (val_inRange hn sg p)

/-! ## The bits of an extension -/

theorem getLsbD_zext_setWidth (p : BitVec w) {i : Nat} (hi : i < w) :
    (zext w (p.setWidth n)).getLsbD i = if i < n then p.getLsbD i else false := by
  by_cases h : i < n <;> simp [zext, hi, h]

theorem getLsbD_sext_setWidth (hn : 0 < n) (p : BitVec w) {i : Nat} (hi : i < w) :
    (sext w (p.setWidth n)).getLsbD i = if i < n then p.getLsbD i else p.getLsbD (n - 1) := by
  rw [sext, BitVec.getLsbD_signExtend, BitVec.msb_eq_getLsbD_last]
  by_cases h : i < n <;> simp [hi, h, hn]

theorem zext_setWidth_eq_iff (p : BitVec w) :
    zext w (p.setWidth n) = p ↔ ∀ i, n ≤ i → i < w → p.getLsbD i = false := by
  constructor
  · intro h i hi hiw
    rw [← h, getLsbD_zext_setWidth p hiw, if_neg (by omega)]
  · intro h
    refine BitVec.eq_of_getLsbD_eq fun i hiw => ?_
    rw [getLsbD_zext_setWidth p hiw]
    split_ifs with hi
    · rfl
    · exact (h i (by omega) hiw).symm

theorem sext_setWidth_eq_iff (hn : 0 < n) (p : BitVec w) :
    sext w (p.setWidth n) = p ↔ ∀ i, n - 1 ≤ i → i < w → p.getLsbD i = p.getLsbD (n - 1) := by
  constructor
  · intro h i hi hiw
    by_cases hin : i < n
    · rw [show i = n - 1 by omega]
    · have hbit := getLsbD_sext_setWidth hn p hiw
      rwa [h, if_neg hin] at hbit
  · intro h
    refine BitVec.eq_of_getLsbD_eq fun i hiw => ?_
    rw [getLsbD_sext_setWidth hn p hiw]
    split_ifs with hi
    · rfl
    · exact (h i (by omega) hiw).symm

/-! ## The settled statement -/

/-- Settles O19: the integer forms are the limits written out, the bit forms are those of an extension. -/
theorem rangeCheckIsTheBitPattern : Obligations.RangeCheckIsTheBitPattern := by
  intro c p
  have hn := width_bits_pos c
  have hw := width_le_container c
  refine ⟨?_, ?_, ?_, ?_, fun h => ⟨inrange_of_eq hn h .u p, inrange_of_eq hn h .s p⟩⟩
  · simp [inrange_iff, InRange, val, uval_nonneg]
  · exact (inrange_iff_ext_setWidth hn hw .u p).trans (zext_setWidth_eq_iff p)
  · simp [inrange_iff, InRange, val]
  · exact (inrange_iff_ext_setWidth hn hw .s p).trans (sext_setWidth_eq_iff hn p)

end Sys2Proof.Machine
end

section
/-! The assembler's view (30_encoding.md R63 to R66): a source call and a pseudo-instruction assemble to a command that
completes. That needs the range closure of the source's functions, so that the result is read back from the bus, and
what the adder and the subtractor do with a zero operand. -/

namespace Sys2Proof.Machine

variable {n : Nat}

/-! ## Results in range -/

theorem uval_and_mask_le {w : Nat} (b : BitVec w) : uval (b &&& maskPattern w n) ≤ mask n := by
  have h : (b &&& maskPattern w n).toNat ≤ mask n := by
    rw [BitVec.toNat_and, maskPattern, BitVec.toNat_ofNat]
    exact Nat.and_le_right.trans (Nat.mod_le _ _)
  exact Int.ofNat_le.mpr h

theorem inRange_u_of_le {v : Int} (h0 : 0 ≤ v) (h1 : v ≤ mask n) : InRange .u n v := by
  simpa [InRange, mask_cast] using And.intro h0 h1

theorem mask_inRange : InRange .u n (mask n) := inRange_u_of_le (Int.natCast_nonneg _) le_rfl

theorem addu_inRange (x y : Int) : InRange .u n (addu n x y) := by
  unfold addu
  split
  · exact mask_inRange
  · exact inRange_u_of_le (uval_nonneg _) (uval_and_mask_le _)

theorem subu_inRange (x y : Int) : InRange .u n (subu n x y) := by
  unfold subu
  split
  · exact inRange_u_of_le le_rfl (Int.natCast_nonneg _)
  · exact inRange_u_of_le (uval_nonneg _) (uval_and_mask_le _)

theorem mulu_inRange (hn : 0 < n) (x y : Int) : InRange .u n (mulu n x y) := by
  unfold mulu
  split
  · exact mask_inRange
  · exact val_inRange hn .u _

theorem divu_inRange {x y q : Int} (hx : InRange .u n x) (hy : InRange .u n y) (h : divu n x y = some q) :
    InRange .u n q := by
  obtain ⟨hx0, hx1⟩ := hx
  obtain ⟨hy0, -⟩ := hy
  simp only [limits_u, ulimits_min] at hx0 hy0
  unfold divu at h
  split at h
  · cases h
  · cases h
    rw [floorDiv_eq hy0]
    exact ⟨Int.ediv_nonneg hx0 hy0, (Int.ediv_le_self y hx0).trans hx1⟩

/-- A value closer to zero than `2 ^ n` truncates to zero only if it is zero. -/
theorem trunc_eq_zero_iff {v : Int} (h0 : -(2 ^ n) < v) (h1 : v < 2 ^ n) : trunc n v = 0#n ↔ v = 0 := by
  rw [show 0#n = trunc n 0 by simp [trunc], trunc_eq_iff, Int.zero_emod]
  exact ⟨fun h => Int.eq_zero_of_abs_lt_dvd (Int.dvd_of_emod_eq_zero h) (abs_lt.mpr ⟨h0, h1⟩),
    fun h => by rw [h, Int.zero_emod]⟩

/-- The divider's predicate holds for the minimum divided by -1 alone (42_overflow_detector.md R108). -/
theorem ovfDivs_iff (hn : 0 < n) {x y : Int} (hx : InRange .s n x) (hy : InRange .s n y) :
    ovfDivs n x y = true ↔ y = -1 ∧ x = (slimits n).min := by
  have hp := two_pow_pred hn
  have hone : trunc n y + 1 = trunc n (y + 1) := by rw [trunc_add]; simp [trunc]
  obtain ⟨hx0, hx1⟩ := hx
  obtain ⟨hy0, hy1⟩ := hy
  simp only [limits_s, slimits_min, slimits_max] at *
  simp only [ovfDivs, decide_eq_true_eq, BitVec.ofNat_eq_ofNat, BitVec.or_eq_zero_iff] at hone ⊢
  rw [hone, ← trunc_sub, trunc_eq_zero_iff (by omega) (by omega), slimits_min,
    trunc_eq_zero_iff (by omega) (by omega)]
  omega

/-- The quotient rounded toward zero of values in `[-m, m)` stays there, but for `-m` divided by -1. -/
theorem tdiv_inRange {m x y : Int} (hx0 : -m ≤ x) (hx1 : x < m) (hne : ¬(y = -1 ∧ x = -m)) :
    -m ≤ Int.tdiv x y ∧ Int.tdiv x y < m := by
  have habs : (Int.tdiv x y).natAbs = x.natAbs / y.natAbs := Int.natAbs_tdiv x y
  have hle : x.natAbs / y.natAbs ≤ x.natAbs := Nat.div_le_self _ _
  refine ⟨by omega, ?_⟩
  by_contra hge
  have hx : x = -m := by omega
  have hself : x.natAbs / y.natAbs = x.natAbs := by omega
  have hy : y = 1 := by
    have := Nat.div_eq_self.mp hself
    omega
  rw [hy, Int.tdiv_one] at hge
  omega

theorem divs_inRange (hn : 0 < n) {x y q : Int} (hx : InRange .s n x) (hy : InRange .s n y)
    (h : divs n x y = some q) : InRange .s n q := by
  have hovf := ovfDivs_iff hn hx hy
  obtain ⟨hx0, hx1⟩ := hx
  simp only [limits_s, slimits_min, slimits_max, InRange] at *
  unfold divs at h
  split at h
  · cases h
  · cases h
    rw [tdiv_eq]
    by_cases ho : ovfDivs n x y = true
    · obtain ⟨rfl, rfl⟩ := hovf.mp ho
      rw [if_pos ho, Int.tdiv_neg, Int.tdiv_one]
      omega
    · rw [if_neg ho, add_zero]
      have := tdiv_inRange hx0 (by omega) (mt hovf.mpr ho)
      omega

/-- Range closure (42_overflow_detector.md R115). A signed sum, difference or product is the value of an `n`-bit
pattern, so only the other functions need an argument of their own. -/
theorem sourceFunction_inRange (hn : 0 < n) {op : ArithOp} {sg : Sg} {x y q : Int} (hx : InRange sg n x)
    (hy : InRange sg n y) (h : sourceFunction op sg n x y = some q) : InRange sg n q := by
  cases op <;> cases sg
  case add.u => cases h; exact addu_inRange x y
  case add.s => cases h; exact val_inRange hn .s _
  case sub.u => cases h; exact subu_inRange x y
  case sub.s => cases h; exact val_inRange hn .s _
  case mul.u => cases h; exact mulu_inRange hn x y
  case mul.s => cases h; exact val_inRange hn .s _
  case div.u => exact divu_inRange hx hy h
  case div.s => exact divs_inRange hn hx hy h

/-! ## Zero as an operand of the adder and the subtractor -/

theorem uval_and_mask {w : Nat} (h : n ≤ w) (b : BitVec w) : uval (b &&& maskPattern w n) = uval b % 2 ^ n := by
  have hlt : 2 ^ n - 1 < 2 ^ w := (Nat.sub_lt (by positivity) Nat.one_pos).trans_le (Nat.pow_le_pow_right two_pos h)
  simp only [uval, maskPattern, mask_eq, BitVec.toNat_and, BitVec.toNat_ofNat, Nat.mod_eq_of_lt hlt,
    Nat.and_two_pow_sub_one_eq_mod]
  push_cast
  rfl

/-- Adding zero is exact: the container sum is the operand itself, within the mask. -/
theorem addu_zero (hw : n ≤ container n) {x : Int} (hx : InRange .u n x) :
    addu n x 0 = x ∧ ovfAddu n x 0 = false := by
  obtain ⟨hx0, hx1⟩ := hx
  simp only [limits_u, ulimits_min, ulimits_max] at hx0 hx1
  have hpow : (2 : Int) ^ n ≤ 2 ^ container n := pow_le_pow_right₀ (by norm_num) hw
  have hres : uval (trunc (container n) (x + 0)) = x := by rw [add_zero]; exact uval_trunc hx0 (by omega)
  have hovf : ovfAddu n x 0 = false := by
    simp only [ovfAddu, hres, mask_cast, Bool.or_eq_false_iff, decide_eq_false_iff_not]
    omega
  refine ⟨?_, hovf⟩
  simp only [addu, hovf]
  rw [if_neg (by simp), uval_and_mask hw, hres, Int.emod_eq_of_lt hx0 (by omega)]

theorem trunc_zero (n : Nat) : trunc n 0 = 0#n := by simp [trunc]

theorem sval_eq_min_iff (hn : 0 < n) (b : BitVec n) : sval b = -(2 ^ (n - 1)) ↔ b = BitVec.intMin n := by
  rw [← BitVec.toInt_inj, BitVec.toInt_intMin_of_pos hn]; rfl

/-- Zero minus a value overflows for the minimum alone, whose pattern is its own negation. -/
theorem ovfSubs_zero (hn : 0 < n) (b : BitVec n) : ovfSubs n 0 (sval b) = true ↔ sval b = -(2 ^ (n - 1)) := by
  rw [sval_eq_min_iff hn, ovfSubs, trunc_zero, trunc_sval, BitVec.zero_sub]
  by_cases hmin : b = BitVec.intMin n
  · simp [hmin, BitVec.msb_intMin, hn]
  · by_cases hzero : b = 0#n
    · subst hzero; simp [hmin]
    · simp [BitVec.msb_neg_of_ne_intMin_of_ne_zero hmin hzero, hmin]

theorem subs_zero_of_min (hn : 0 < n) {b : BitVec n} (h : sval b = -(2 ^ (n - 1))) :
    subs n 0 (sval b) = 2 ^ (n - 1) - 1 := by
  have hpos : (0 : Int) < 2 ^ (n - 1) := by positivity
  rw [subs, if_pos ((ovfSubs_zero hn b).mpr h), trunc_zero, boundS, slimits_max]
  simpa using sval_trunc (n := n) hn (v := 2 ^ (n - 1) - 1) (by omega) (by omega)

theorem subs_zero_of_ne_min (hn : 0 < n) {b : BitVec n} (h : sval b ≠ -(2 ^ (n - 1))) :
    subs n 0 (sval b) = -sval b := by
  rw [subs, if_neg (mt (ovfSubs_zero hn b).mp h), trunc_zero, trunc_sval, BitVec.zero_sub]
  exact BitVec.toInt_neg_of_ne_intMin (mt (sval_eq_min_iff hn b).mpr h)

theorem detect_zero_sub (n : Nat) (y : Int) :
    detect .sub .s n 0 y = ⟨ovfSubs n 0 y, false, some (boundS n false)⟩ := by
  simp [detect, trunc_zero]

/-! ## The eight arithmetic commands as one -/

/-- The unit of an arithmetic command (43_add_sub.md, 44_mul_div.md). -/
def arithUnit (op : ArithOp) (sg : Sg) : Nat → Int → Int → Except Cause ArithOut :=
  match op with
  | .add => saturatingAdder sg
  | .sub => saturatingSubtractor sg
  | .mul => saturatingMultiplier sg
  | .div => saturatingDivider sg

theorem exec_arithInstr (op : ArithOp) (sg : Sg) (rd : SReg) (x y : Source) (s : State) :
    exec (arithInstr op sg rd x y) s = s.arith sg rd x y (arithUnit op sg) := by
  cases op <;> cases sg <;> rfl

theorem arithInstr_wellFormed (op : ArithOp) (sg : Sg) (rd : SReg) (x y : Source) :
    (arithInstr op sg rd x y).wellFormed = true := by
  cases op <;> cases sg <;> rfl

/-- Where the source's function has a value the unit answers it, with the detector's flags. -/
theorem arithUnit_of_sourceFunction {op : ArithOp} {sg : Sg} {x y q : Int} (h : sourceFunction op sg n x y = some q) :
    arithUnit op sg n x y = .ok (detected op sg n x y q) := by
  cases op <;> cases sg
  case div.u =>
    have h' : divu n x y = some q := h
    simp [arithUnit, saturatingDivider, quotient, h']
  case div.s =>
    have h' : divs n x y = some q := h
    simp [arithUnit, saturatingDivider, quotient, h']
  all_goals cases h; rfl

/-- An arithmetic command on operands in range writes back the value of the source's function, with the detector's
flags (30_encoding.md R59, R66). -/
theorem exec_arithInstr_completes (op : ArithOp) (sg : Sg) (rd : SReg) {x y : Source} {s : State} {q : Int}
    (hf : s.fault.f = false) (hr : s.OperandsInRange sg x y)
    (hq : sourceFunction op sg s.bits (s.xVal sg x) (s.yVal sg y) = some q) :
    exec (arithInstr op sg rd x y) s =
      .next (s.afterArith sg rd q (detect op sg s.bits (s.xVal sg x) (s.yVal sg y)).ovf
        (detect op sg s.bits (s.xVal sg x) (s.yVal sg y)).dir) := by
  rw [exec_arithInstr, arith_eq, hf, (rangeFault_eq_none_iff s sg x y).mpr hr, arithUnit_of_sourceFunction hq]
  rfl

/-! ## Assembled commands -/

theorem inRange_mono {w : Nat} {sg : Sg} {k : Int} (hw : n ≤ w) (h : InRange sg n k) : InRange sg w k := by
  obtain ⟨h0, h1⟩ := h
  cases sg with
  | u =>
    have hpow : (2 : Int) ^ n ≤ 2 ^ w := pow_le_pow_right₀ (by norm_num) hw
    simp only [limits_u, ulimits_min, ulimits_max, InRange] at *
    omega
  | s =>
    have hpow : (2 : Int) ^ (n - 1) ≤ 2 ^ (w - 1) := pow_le_pow_right₀ (by norm_num) (by omega)
    simp only [limits_s, slimits_min, slimits_max, InRange] at *
    omega

/-- A value in range under either view fits the port (30_encoding.md R64). -/
theorem asmImmediate_of_inRange {sg : Sg} {k : Int} (hn : 0 < n) (h : InRange sg n k) :
    asmImmediate n k = some (trunc n k) := by
  have hpow := two_pow_pred hn
  have hpos : (0 : Int) < 2 ^ (n - 1) := by positivity
  obtain ⟨h0, h1⟩ := h
  refine if_pos ?_
  cases sg <;> simp only [limits_u, limits_s, ulimits_min, ulimits_max, slimits_min, slimits_max] at h0 h1 <;> omega

theorem val_zero {w : Nat} (sg : Sg) : val sg (0#w) = 0 := by cases sg <;> simp [val, uval, sval]

theorem inRange_zero (n : Nat) (sg : Sg) : InRange sg n 0 := by
  have hpow : (0 : Int) < 2 ^ n := by positivity
  have hpow' : (0 : Int) < 2 ^ (n - 1) := by positivity
  cases sg <;> simp only [limits_u, limits_s, ulimits_min, ulimits_max, slimits_min, slimits_max, InRange] <;> omega

theorem asmImmediate_zero (hn : 0 < n) : asmImmediate n 0 = some 0#n := by
  rw [asmImmediate_of_inRange hn (inRange_zero n .u), trunc_zero]

theorem step_presented (s : State) {i : Instr} (hwf : i.wellFormed = true) (xi yi : BitVec s.busWidth)
    (rest : List (HostEvent s.busWidth)) :
    step { s with inputs := .command (encode i) xi yi :: rest } = exec i (s.taking rest xi yi) :=
  step_of_legal { s with inputs := .command (encode i) xi yi :: rest } xi yi rest rfl (decode_encode hwf)

/-- The run of one command from reset. -/
theorem runEnd_command {c : Width} {i : Instr} {xi yi : BitVec (container c.bits)} {t : State}
    (hwf : i.wellFormed = true) (h : exec i ((State.resetAt c).taking [] xi yi) = .next t) :
    runEnd c [.command (encode i) xi yi] = .next t :=
  (run_succ_of_next 0 ((step_presented (State.resetAt c) hwf xi yi []).trans h)).trans rfl

/-- A command with two immediates assembles if both are in range at the port's width. -/
theorem assemble_immediates {w : Nat} (hw : 0 < w) (op : ArithOp) {sg : Sg} (rd : SReg) {x y : Int}
    (hx : InRange sg w x) (hy : InRange sg w y) :
    (Asm.arith op sg rd (.imm x) (.imm y)).assemble w =
      some (.command (encode (arithInstr op sg rd .imm .imm)) (trunc w x) (trunc w y)) := by
  simp only [Asm.assemble, Asm.expand, Asm.assembleCore, asmCommand, AsmOperand.port, AsmOperand.source,
    asmImmediate_of_inRange hw hx, asmImmediate_of_inRange hw hy]

/-! ## The pseudo-instructions (30_encoding.md R65) -/

section Pseudo

variable {w : Nat} (hw : 0 < w) (rd ra : SReg)

include hw

theorem assemble_mov :
    (Asm.mov rd ra).assemble w = some (.command (encode (arithInstr .add .u rd (.reg ra) .imm)) 0 0) := by
  simp [Asm.assemble, Asm.expand, Asm.assembleCore, asmCommand, AsmOperand.port, AsmOperand.source,
    asmImmediate_zero hw]

theorem assemble_clr : (Asm.clr rd).assemble w = some (.command (encode (.set rd)) 0 0) := by
  simp [Asm.assemble, Asm.expand, Asm.assembleCore, asmCommand, AsmOperand.port, asmImmediate_zero hw]

theorem assemble_negs :
    (Asm.negs rd ra).assemble w = some (.command (encode (arithInstr .sub .s rd .imm (.reg ra))) 0 0) := by
  simp [Asm.assemble, Asm.expand, Asm.assembleCore, asmCommand, AsmOperand.port, AsmOperand.source,
    asmImmediate_zero hw]

end Pseudo

theorem assemble_rdflags (w : Nat) : Asm.rdflags.assemble w = some (.command (encode (.getu 0)) 0 0) := rfl

section PseudoEffects

variable {s : State} (hf : s.fault.f = false) (rd ra : SReg)

include hf

/-- Adding an immediate of zero copies the register and clears `FLAGS`. -/
theorem exec_add_zero (hy : s.yi = 0#s.busWidth) :
    exec (arithInstr .add .u rd (.reg ra) .imm) s = .next (s.afterArith .u rd (uval s.sreg[ra]) false false) := by
  have hyv : s.yVal .u .imm = 0 := by rw [State.yVal, hy, val_zero]
  have hx : InRange .u s.bits (uval s.sreg[ra]) := val_inRange (width_bits_pos s.width) .u s.sreg[ra]
  obtain ⟨hq, hovf⟩ := addu_zero (width_le_container s.width) hx
  have hr : s.OperandsInRange .u (.reg ra) .imm :=
    ⟨nofun, fun _ => by rw [hy, val_zero]; exact inRange_zero s.bits .u⟩
  rw [exec_arithInstr_completes .add .u rd hf hr (q := uval s.sreg[ra]) (by rw [hyv]; exact congrArg some hq), hyv]
  simp only [detect, State.xVal, val, hovf]

/-- Subtracting from an immediate of zero negates the register, saturating for the minimum. -/
theorem exec_zero_sub (hx : s.xi = 0#s.busWidth) :
    exec (arithInstr .sub .s rd .imm (.reg ra)) s =
      .next (if sval s.sreg[ra] = -(2 ^ (s.bits - 1)) then s.afterArith .s rd (2 ^ (s.bits - 1) - 1) true false
        else s.afterArith .s rd (-sval s.sreg[ra]) false false) := by
  have hn := width_bits_pos s.width
  have hxv : s.xVal .s .imm = 0 := by rw [State.xVal, hx, val_zero]
  have hr : s.OperandsInRange .s .imm (.reg ra) :=
    ⟨fun _ => by rw [hx, val_zero]; exact inRange_zero s.bits .s, nofun⟩
  have hovf : ovfSubs s.bits 0 (sval s.sreg[ra]) = true ↔ sval s.sreg[ra] = -(2 ^ (s.bits - 1)) :=
    ovfSubs_zero hn s.sreg[ra]
  rw [exec_arithInstr_completes .sub .s rd hf hr rfl, hxv, State.yVal, val, detect_zero_sub]
  by_cases hmin : sval s.sreg[ra] = -(2 ^ (s.bits - 1))
  · rw [if_pos hmin, hovf.mpr hmin, subs_zero_of_min hn hmin]
  · rw [if_neg hmin, Bool.eq_false_iff.mpr (mt hovf.mp hmin), subs_zero_of_ne_min hn hmin]

end PseudoEffects

/-! ## The settled statements -/

/-- Settles O44: the two immediates stand on the ports at their value, so the command completes with the value of the
source's function, which is in range and is therefore read back from the bus. -/
theorem assembledCallReturnsSourceFunction : Obligations.AssembledCallReturnsSourceFunction := by
  intro c op sg rd x y q hx hy hq
  have hn := width_bits_pos c
  have hw := width_le_container c
  have hwpos : 0 < container c.bits := hn.trans_le hw
  have hxw := inRange_mono hw hx
  have hyw := inRange_mono hw hy
  have hxv : val sg (trunc (container c.bits) x) = x := val_trunc hwpos hxw
  have hyv : val sg (trunc (container c.bits) y) = y := val_trunc hwpos hyw
  have hexec := exec_arithInstr_completes op sg rd (x := .imm) (y := .imm)
    (s := (State.resetAt c).taking [] (trunc _ x) (trunc _ y)) rfl
    ⟨fun _ => hxv.symm ▸ hx, fun _ => hyv.symm ▸ hy⟩
    ((congrArg₂ (sourceFunction op sg c.bits) hxv hyv).trans hq)
  exact ⟨_, _, _, assemble_immediates hwpos op rd hxw hyw, runEnd_command (arithInstr_wellFormed ..) hexec, rfl, rfl,
    (val_ext hw sg _).trans (val_trunc hn (sourceFunction_inRange hn hx hy hq))⟩

/-- Settles O45: the expansions add zero to a register, SET zero, subtract a register from zero, and read `s0`. -/
theorem pseudoInstructionsDoWhatTheySay : Obligations.PseudoInstructionsDoWhatTheySay := by
  intro s rd ra rest hf
  have hw : 0 < s.busWidth := (width_bits_pos s.width).trans_le (width_le_container s.width)
  refine ⟨⟨_, assemble_mov hw rd ra, ?_⟩, ⟨_, assemble_clr hw rd, ?_⟩, ⟨_, assemble_negs hw rd ra, ?_⟩,
    ⟨_, assemble_rdflags s.busWidth, ?_⟩⟩
  · rw [step_presented s (arithInstr_wellFormed ..)]
    exact exec_add_zero (s := s.taking rest 0 0) hf rd ra rfl
  · rw [step_presented s rfl]
    exact command_of_good _ _ hf
  · rw [step_presented s (arithInstr_wellFormed ..)]
    exact exec_zero_sub (s := s.taking rest 0 0) hf rd ra rfl
  · rw [step_presented s rfl]
    exact command_of_good _ _ hf

end Sys2Proof.Machine
end

section
/-! The Width/Limits Foundation and the scalar register (40_foundation_scalar.md R70 to R83). Reading a register keeps
its value and truncation is a ring homomorphism, so what is computed on values read is `n`-bit arithmetic once stored;
a shift of a pattern is a product or a floor quotient of its value by a power of two. -/

namespace Sys2Proof.Machine

variable {n w : Nat}

/-! ## Widths, masks and limits -/

theorem container_mem (n : Nat) : container n ∈ [8, 16, 32, 64] := by
  simpa using container_cases n

/-- The container is the least of the native widths that hold `n` bits (40_foundation_scalar.md R70). -/
theorem container_le (hw : w ∈ [8, 16, 32, 64]) (h : n ≤ w) : container n ≤ w := by
  simp only [List.mem_cons, List.not_mem_nil, or_false] at hw
  unfold container
  split_ifs <;> omega

theorem getLsbD_maskPattern {m i : Nat} (hi : i < m) : (maskPattern m n).getLsbD i = decide (i < n) := by
  rw [maskPattern, mask_eq, BitVec.getLsbD_ofNat, Nat.testBit_two_pow_sub_one, decide_eq_true hi, Bool.true_and]

theorem ulimits_eq (n : Nat) : ulimits n = ⟨0, 2 ^ n - 1⟩ := congrArg (Limits.mk 0) (ulimits_max n)

theorem slimits_eq (n : Nat) : slimits n = ⟨-(2 ^ (n - 1)), 2 ^ (n - 1) - 1⟩ :=
  congrArg (Limits.mk · (slimits n).max) (slimits_min n)

theorem trunc_one (n : Nat) : trunc n 1 = 1 := by simp [trunc]

/-- The minimum and the number after the maximum are `2 ^ n` apart (40_foundation_scalar.md R73). -/
theorem trunc_slimits_min (hn : 0 < n) : trunc n (slimits n).min = trunc n (slimits n).max + 1 := by
  have hp := two_pow_pred hn
  have hnext : (slimits n).max + 1 = (slimits n).min + 2 ^ n := by rw [slimits_max, slimits_min]; omega
  rw [← trunc_one, ← trunc_add, trunc_eq_iff, hnext, Int.add_emod_right]

/-! ## Storing what was computed on the bus -/

theorem scalarConstruct_trunc (hw : n ≤ w) (v : Int) : scalarConstruct n (trunc w v) = trunc n v := by
  have hstore : uval (scalarConstruct n (trunc w v)) = uval (trunc w v) % 2 ^ n := by simp [uval, scalarConstruct]
  rw [← trunc_uval (scalarConstruct n (trunc w v)), hstore, uval_trunc_mod, trunc_eq_iff, Int.emod_emod,
    Int.emod_emod_of_dvd v (pow_dvd_pow 2 hw)]

theorem trunc_val_add (sg sg' : Sg) (a b : BitVec n) : trunc n (val sg a + val sg' b) = a + b := by
  rw [trunc_add, trunc_val, trunc_val]

theorem trunc_val_sub (sg sg' : Sg) (a b : BitVec n) : trunc n (val sg a - val sg' b) = a - b := by
  rw [trunc_sub, trunc_val, trunc_val]

theorem trunc_val_mul (sg sg' : Sg) (a b : BitVec n) : trunc n (val sg a * val sg' b) = a * b := by
  rw [trunc_mul, trunc_val, trunc_val]

/-! ## Shifts as arithmetic on values -/

theorem trunc_two_pow (n k : Nat) : trunc n (2 ^ k) = BitVec.twoPow n k := by
  have hcast : (2 : Int) ^ k = (2 ^ k : Nat) := by push_cast; rfl
  apply BitVec.eq_of_toNat_eq
  rw [trunc, hcast, BitVec.ofInt_natCast, BitVec.toNat_ofNat, BitVec.toNat_twoPow]

theorem trunc_val_mul_two_pow (sg : Sg) (a : BitVec n) (k : Nat) : trunc n (val sg a * 2 ^ k) = a <<< k := by
  rw [trunc_mul, trunc_val, trunc_two_pow, BitVec.shiftLeft_eq_mul_twoPow]

theorem uval_ushiftRight (a : BitVec n) (k : Nat) : uval (a >>> k) = floorDiv (uval a) (2 ^ k) := by
  rw [floorDiv_eq (by positivity), uval, BitVec.toNat_ushiftRight, Nat.shiftRight_eq_div_pow]
  push_cast
  rfl

theorem sval_sshiftRight (a : BitVec n) (k : Nat) : sval (a.sshiftRight k) = floorDiv (sval a) (2 ^ k) := by
  rw [floorDiv_eq (by positivity), sval, BitVec.toInt_sshiftRight, Int.shiftRight_eq_div_pow]
  push_cast
  rfl

/-! ## The settled statements -/

/-- Settles O5: each constant by its own lemma; the two patterns of R73 differ by a whole turn. -/
theorem widthAndLimits : Obligations.WidthAndLimits :=
  ⟨rfl, fun c =>
    ⟨⟨container_mem c.bits, width_le_container c, fun _ hw h => container_le hw h⟩,
      fun _ _ _ hi => getLsbD_maskPattern hi,
      ulimits_eq c.bits, slimits_eq c.bits, trunc_slimits_min (width_bits_pos c)⟩⟩

/-- Settles O17: a pattern is the extension of its low bits exactly when it is in range, and an extension keeps the
value. -/
theorem scalarRoundTripIffInRange : Obligations.ScalarRoundTripIffInRange := by
  intro c sg p
  have hw := width_le_container c
  exact ⟨(inrange_iff_ext_setWidth (width_bits_pos c) hw sg p).symm, val_ext hw sg _⟩

/-- Settles O18: truncation takes values back to their patterns, through the container too, and a shifted pattern has
the multiplied or divided value. -/
theorem scalarArithmeticIsNBit : Obligations.ScalarArithmeticIsNBit := by
  intro c sg sg' a b
  have store := fun v => scalarConstruct_trunc (width_le_container c) v
  have hadd := trunc_val_add sg sg' a b
  have hsub := trunc_val_sub sg sg' a b
  have hmul := trunc_val_mul sg sg' a b
  refine ⟨hadd, hsub, hmul, (store _).trans hadd, (store _).trans hsub, (store _).trans hmul, fun k _ => ⟨?_, ?_, ?_⟩⟩
  · exact trunc_val_mul_two_pow sg a k
  · rw [← uval_ushiftRight, trunc_uval]
  · rw [← sval_sshiftRight, trunc_sval]

/-- Settles O32: the three commands are their written-out next states inside the frame of a command. -/
theorem scalarCommandsComplete : Obligations.ScalarCommandsComplete := by
  intro s r hf
  refine ⟨?_, ?_, ?_⟩
  · rw [exec_set, command_of_good s _ hf]
  · rw [exec_getu, command_of_good s _ hf]
  · rw [exec_gets, command_of_good s _ hf]

end Sys2Proof.Machine
end

section
/-! The wide multiply (41_wide_multiply.md R90 to R99). `halvesOf` says once what the contract's halves are as
integers: the floor quotient of the product by `2 ^ n` and the product itself, each truncated. The half-word cores are
then integer identities in the half words: every word they compute is the truncation of an exact integer that fits, so
a shift is a floor quotient and a mask is a remainder. -/

namespace Sys2Proof.Machine

variable {n w : Nat}

/-! ## An exact integer and its halves -/

/-- The halves of an exact integer `v`, split at bit `n`. -/
def halvesOf (n : Nat) (v : Int) : Halves n := ⟨trunc n (v / 2 ^ n), trunc n v⟩

/-- A quotient and a remainder by `2 ^ n` are the two halves. -/
theorem halvesOf_mul_add (hi : Int) {lo : Int} (h0 : 0 ≤ lo) (h1 : lo < 2 ^ n) :
    halvesOf n (hi * 2 ^ n + lo) = ⟨trunc n hi, trunc n lo⟩ := by
  have hquot : (hi * 2 ^ n + lo) / 2 ^ n = hi := by
    rw [add_comm, Int.add_mul_ediv_right _ _ (by positivity), Int.ediv_eq_zero_of_lt h0 h1, zero_add]
  have hrem : trunc n (hi * 2 ^ n + lo) = trunc n lo := by
    rw [trunc_eq_iff, add_comm, Int.add_mul_emod_self_right]
  rw [halvesOf, hquot, hrem]

/-- A field of a truncated integer is the floor quotient, truncated (41_wide_multiply.md R90, bits of `P`). -/
theorem extractLsb'_trunc {i m : Nat} (h : i + n ≤ m) (v : Int) :
    (trunc m v).extractLsb' i n = trunc n (v / 2 ^ i) := by
  have hfield : (trunc m v).extractLsb' i n = trunc n (uval (trunc m v) / 2 ^ i) := by
    rw [← floorDiv_eq (by positivity), ← uval_ushiftRight, trunc_uval_eq_setWidth]
    exact BitVec.eq_of_toNat_eq (by simp)
  have hpow : (2 : Int) ^ m = 2 ^ (m - i) * 2 ^ i := by rw [← pow_add, Nat.sub_add_cancel (by omega)]
  have hquot : v / 2 ^ i = uval (trunc m v) / 2 ^ i + v / 2 ^ m * 2 ^ (m - i) := by
    rw [uval_trunc_mod, ← Int.add_mul_ediv_right _ _ (by positivity), mul_assoc, ← hpow, add_comm,
      Int.ediv_mul_add_emod]
  have hdvd : (2 : Int) ^ n ∣ v / 2 ^ m * 2 ^ (m - i) := Dvd.dvd.mul_left (pow_dvd_pow 2 (by omega)) _
  rw [hfield, hquot, trunc_eq_iff, Int.add_emod, Int.emod_eq_zero_of_dvd hdvd, add_zero, Int.emod_emod]

theorem extractLsb'_trunc_eq_halvesOf {m : Nat} (h : n + n ≤ m) (v : Int) :
    (⟨(trunc m v).extractLsb' n n, (trunc m v).extractLsb' 0 n⟩ : Halves n) = halvesOf n v := by
  rw [halvesOf, extractLsb'_trunc h, extractLsb'_trunc (by omega), pow_zero, Int.ediv_one]

/-- The halves side by side are the `2n`-bit pattern. -/
theorem halvesOf_append (n : Nat) (v : Int) : (halvesOf n v).hi ++ (halvesOf n v).lo = trunc (n + n) v := by
  rw [← extractLsb'_trunc_eq_halvesOf le_rfl v, BitVec.extractLsb'_append_extractLsb']

/-- The contract's halves are those of the exact product. -/
theorem wmul_eq_halvesOf (n : Nat) (x y : Int) : wmul n x y = halvesOf n (x * y) :=
  extractLsb'_trunc_eq_halvesOf (two_mul n).ge (x * y)

/-! ## Reading the halves together (41_wide_multiply.md R91) -/

theorem val_append (hn : 0 < n) (sg : Sg) (hi lo : BitVec n) :
    val sg (hi ++ lo) = val sg hi * 2 ^ n + uval lo := by
  cases sg with
  | u =>
    rw [val, uval, toNat_append_eq_add]
    push_cast
    rfl
  | s => simp [val, uval, sval, BitVec.toInt_append, hn.ne', mul_comm]

/-- The product of two operands in range fits in `2n` bits. -/
theorem mul_inRange (hn : 0 < n) {sg : Sg} {x y : Int} (hx : InRange sg n x) (hy : InRange sg n y) :
    InRange sg (n + n) (x * y) := by
  obtain ⟨hx0, hx1⟩ := hx
  obtain ⟨hy0, hy1⟩ := hy
  have hpow : (2 : Int) ^ (n + n) = 2 ^ n * 2 ^ n := pow_add 2 n n
  cases sg with
  | u =>
    simp only [limits_u, ulimits_min, ulimits_max, InRange] at *
    constructor <;> nlinarith
  | s =>
    have hn2 := two_pow_pred hn
    have hnn := two_pow_pred (show 0 < n + n by omega)
    have hhalf : (2 : Int) ^ (n + n - 1) = 2 * (2 ^ (n - 1) * 2 ^ (n - 1)) := by rw [hn2] at hpow; linarith
    simp only [limits_s, slimits_min, slimits_max, InRange] at *
    rw [hhalf]
    constructor <;> nlinarith

/-- The halves of an integer that fits lose nothing. -/
theorem val_halvesOf (hn : 0 < n) {sg : Sg} {v : Int} (hv : InRange sg (n + n) v) :
    val sg ((halvesOf n v).hi ++ (halvesOf n v).lo) = v := by
  rw [halvesOf_append, val_trunc (by omega) hv]

/-! ## Words as truncated integers -/

theorem trunc_shiftLeft (v : Int) (k : Nat) : trunc w v <<< k = trunc w (v * 2 ^ k) := by
  rw [trunc_mul, trunc_two_pow, BitVec.shiftLeft_eq_mul_twoPow]

theorem trunc_ushiftRight {v : Int} (h0 : 0 ≤ v) (h1 : v < 2 ^ w) (k : Nat) :
    trunc w v >>> k = trunc w (v / 2 ^ k) := by
  rw [← trunc_uval (trunc w v >>> k), uval_ushiftRight, uval_trunc h0 h1, floorDiv_eq (by positivity)]

theorem trunc_sshiftRight (hw : 0 < w) {v : Int} (hv : InRange .s w v) (k : Nat) :
    (trunc w v).sshiftRight k = trunc w (v / 2 ^ k) := by
  have hval : sval (trunc w v) = v := val_trunc hw hv
  rw [← trunc_sval ((trunc w v).sshiftRight k), sval_sshiftRight, hval, floorDiv_eq (by positivity)]

/-- Masking is the remainder, of negative integers too (41_wide_multiply.md R95). -/
theorem trunc_and_mask (h : n ≤ w) (v : Int) : trunc w v &&& maskPattern w n = trunc w (v % 2 ^ n) := by
  rw [← trunc_uval (trunc w v &&& maskPattern w n), uval_and_mask h, uval_trunc_mod,
    Int.emod_emod_of_dvd _ (pow_dvd_pow 2 h)]

theorem lowHalf_trunc (v : Int) : lowHalf w (trunc w v) = trunc w (v % 2 ^ (w / 2)) :=
  trunc_and_mask (Nat.div_le_self w 2) v

/-- A half word beside a shifted word: the two have no bit in common, so the disjunction is the sum. -/
theorem trunc_emod_or_trunc_mul {k : Nat} (h : k ≤ w) (u v : Int) :
    trunc w (u % 2 ^ k) ||| trunc w (v * 2 ^ k) = trunc w (u % 2 ^ k + v * 2 ^ k) := by
  rw [trunc_add, ← trunc_and_mask h, ← trunc_shiftLeft]
  refine (BitVec.add_eq_or_of_and_eq_zero _ _ (BitVec.eq_of_getLsbD_eq fun i hi => ?_)).symm
  rw [BitVec.getLsbD_and, BitVec.getLsbD_and, getLsbD_maskPattern hi, BitVec.getLsbD_shiftLeft]
  by_cases hk : i < k <;> simp [hk]

/-! ## The cores -/

/-- Schoolbook multiplication in base `B`, with the carries of 41_wide_multiply.md R94. -/
theorem schoolbook_unsigned (B x0 x1 y0 y1 : Int) {mid : Int}
    (hmid : mid = x0 * y0 / B + x0 * y1 % B + x1 * y0 % B) :
    (x1 * B + x0) * (y1 * B + y0) =
      (x1 * y1 + x0 * y1 / B + x1 * y0 / B + mid / B) * (B * B) + (x0 * y0 % B + mid % B * B) := by
  linear_combination (-B) * hmid - Int.ediv_mul_add_emod (x0 * y0) B - B * Int.ediv_mul_add_emod (x0 * y1) B -
    B * Int.ediv_mul_add_emod (x1 * y0) B - B * Int.ediv_mul_add_emod mid B

/-- Schoolbook multiplication in base `B`, with the carries of 41_wide_multiply.md R95. -/
theorem schoolbook_signed (B x0 x1 y0 y1 : Int) {t w1 : Int} (ht : t = x1 * y0 + x0 * y0 / B)
    (hw1 : w1 = x0 * y1 + t % B) :
    (x1 * B + x0) * (y1 * B + y0) =
      (x1 * y1 + t / B + w1 / B) * (B * B) + (x0 * y0 % B + w1 % B * B) := by
  linear_combination (-B) * ht - B * hw1 - Int.ediv_mul_add_emod (x0 * y0) B - B * Int.ediv_mul_add_emod t B -
    B * Int.ediv_mul_add_emod w1 B

/-- Two half words make a word. -/
theorem two_digits_lt {B a b : Int} (ha : 0 ≤ a ∧ a < B) (hb : 0 ≤ b ∧ b < B) :
    0 ≤ a + b * B ∧ a + b * B < B * B := by
  obtain ⟨ha0, ha1⟩ := ha
  obtain ⟨hb0, hb1⟩ := hb
  constructor <;> nlinarith

/-- A partial product of two unsigned half words fits in a word (41_wide_multiply.md R92). -/
theorem partial_product_lt {B a b : Int} (ha : 0 ≤ a ∧ a < B) (hb : 0 ≤ b ∧ b < B) :
    0 ≤ a * b ∧ a * b < B * B :=
  ⟨mul_nonneg ha.1 hb.1, mul_lt_mul'' ha.2 hb.2 ha.1 hb.1⟩

/-- The sum of three half words fits in a word, as `mid` of 41_wide_multiply.md R94. -/
theorem mid_sum_lt {B a b c : Int} (ha : 0 ≤ a ∧ a < B) (hb : 0 ≤ b ∧ b < B) (hc : 0 ≤ c ∧ c < B) :
    0 ≤ a + b + c ∧ a + b + c < B * B := by
  have hsq : 3 * (B - 1) < B * B := by nlinarith [sq_nonneg (2 * B - 3)]
  omega

/-! ### The half words (41_wide_multiply.md R92, R93) -/

theorem two_pow_half_mul_self (hw : Even w) : (2 : Int) ^ (w / 2) * 2 ^ (w / 2) = 2 ^ w := by
  rw [← pow_add, ← two_mul, Nat.two_mul_div_two_of_even hw]

theorem emod_half_bounds (w : Nat) (v : Int) : 0 ≤ v % 2 ^ (w / 2) ∧ v % 2 ^ (w / 2) < 2 ^ (w / 2) :=
  ⟨Int.emod_nonneg v (by positivity), Int.emod_lt_of_pos v (by positivity)⟩

theorem ediv_half_bounds {v : Int} (h : 0 ≤ v ∧ v < 2 ^ (w / 2) * 2 ^ (w / 2)) :
    0 ≤ v / 2 ^ (w / 2) ∧ v / 2 ^ (w / 2) < 2 ^ (w / 2) :=
  ⟨Int.ediv_nonneg h.1 (by positivity), Int.ediv_lt_of_lt_mul (by positivity) h.2⟩

theorem lowHalf_eq_trunc (sg : Sg) (X : BitVec w) : lowHalf w X = trunc w (val sg X % 2 ^ (w / 2)) := by
  rw [← lowHalf_trunc, trunc_val]

/-- A word as two unsigned half words. -/
theorem unsigned_halves (hw : Even w) (X : BitVec w) :
    ∃ x1 x0 : Int, uval X = x1 * 2 ^ (w / 2) + x0 ∧ (0 ≤ x1 ∧ x1 < 2 ^ (w / 2)) ∧
      (0 ≤ x0 ∧ x0 < 2 ^ (w / 2)) ∧ X >>> (w / 2) = trunc w x1 ∧ lowHalf w X = trunc w x0 := by
  have hX : 0 ≤ uval X ∧ uval X < 2 ^ (w / 2) * 2 ^ (w / 2) :=
    ⟨uval_nonneg X, two_pow_half_mul_self hw ▸ uval_lt X⟩
  have hshift := trunc_ushiftRight (uval_nonneg X) (uval_lt X) (w / 2)
  rw [trunc_uval] at hshift
  exact ⟨_, _, (Int.ediv_mul_add_emod (uval X) (2 ^ (w / 2))).symm, ediv_half_bounds hX, emod_half_bounds w _,
    hshift, lowHalf_eq_trunc .u X⟩

/-- A word as a signed high and an unsigned low half word. -/
theorem signed_halves (hw : Even w) (h0 : 0 < w) (X : BitVec w) :
    ∃ x1 x0 : Int, sval X = x1 * 2 ^ (w / 2) + x0 ∧ (-(2 ^ (w / 2 - 1)) ≤ x1 ∧ x1 < 2 ^ (w / 2 - 1)) ∧
      (0 ≤ x0 ∧ x0 < 2 ^ (w / 2)) ∧ X.sshiftRight (w / 2) = trunc w x1 ∧ lowHalf w X = trunc w x0 := by
  have hk : w / 2 + w / 2 = w := by rw [← two_mul, Nat.two_mul_div_two_of_even hw]
  have hpow : (2 : Int) ^ (w - 1) = 2 ^ (w / 2 - 1) * 2 ^ (w / 2) := by rw [← pow_add]; congr 1; omega
  have hmin := sval_ge h0 X
  have hmax := sval_lt h0 X
  rw [hpow] at hmin hmax
  have hshift := trunc_sshiftRight h0 (val_inRange h0 .s X) (w / 2)
  rw [trunc_val] at hshift
  exact ⟨_, _, (Int.ediv_mul_add_emod (sval X) (2 ^ (w / 2))).symm,
    ⟨Int.le_ediv_of_mul_le (by positivity) (by rwa [neg_mul]), Int.ediv_lt_of_lt_mul (by positivity) hmax⟩,
    emod_half_bounds w _, hshift, lowHalf_eq_trunc .s X⟩

/-- A signed half word times an unsigned one, plus an unsigned one, fits in a signed word, as `t` and `w1` of
41_wide_multiply.md R95. -/
theorem signed_partial_inRange (hw : Even w) (h0 : 0 < w) {h l c : Int}
    (hh : -(2 ^ (w / 2 - 1)) ≤ h ∧ h < 2 ^ (w / 2 - 1)) (hl : 0 ≤ l ∧ l < 2 ^ (w / 2))
    (hc : 0 ≤ c ∧ c < 2 ^ (w / 2)) : InRange .s w (h * l + c) := by
  have hsq := two_pow_half_mul_self hw
  have hhalf : (2 : Int) ^ (w / 2) = 2 * 2 ^ (w / 2 - 1) := two_pow_pred (by obtain ⟨k, rfl⟩ := hw; omega)
  have hpred := two_pow_pred h0
  rw [hhalf] at hsq hl hc
  obtain ⟨hh0, hh1⟩ := hh
  obtain ⟨hl0, hl1⟩ := hl
  obtain ⟨hc0, hc1⟩ := hc
  simp only [limits_s, slimits_min, slimits_max, InRange]
  constructor <;> nlinarith

theorem container_even (n : Nat) : Even (container n) := by
  obtain h | h | h | h := container_cases n <;> rw [h] <;> decide

/-! ### The words of the accumulation -/

/-- The unsigned core gives the halves of the exact product (41_wide_multiply.md R92, R94). -/
theorem wideCoreU_eq_halvesOf (hw : Even w) (X Y : BitVec w) :
    wideCoreU w X Y = halvesOf w (uval X * uval Y) := by
  have hsq := two_pow_half_mul_self hw
  have shift {v : Int} (hv : 0 ≤ v ∧ v < 2 ^ (w / 2) * 2 ^ (w / 2)) :
      trunc w v >>> (w / 2) = trunc w (v / 2 ^ (w / 2)) := trunc_ushiftRight hv.1 (hsq ▸ hv.2) _
  obtain ⟨x1, x0, hX, hx1, hx0, hXhi, hXlo⟩ := unsigned_halves hw X
  obtain ⟨y1, y0, hY, hy1, hy0, hYhi, hYlo⟩ := unsigned_halves hw Y
  have h00 := partial_product_lt hx0 hy0
  have h01 := partial_product_lt hx0 hy1
  have h10 := partial_product_lt hx1 hy0
  obtain ⟨mid, hmid⟩ : ∃ mid, mid = x0 * y0 / 2 ^ (w / 2) + x0 * y1 % 2 ^ (w / 2) + x1 * y0 % 2 ^ (w / 2) :=
    ⟨_, rfl⟩
  have hmidLt : 0 ≤ mid ∧ mid < 2 ^ (w / 2) * 2 ^ (w / 2) :=
    hmid ▸ mid_sum_lt (ediv_half_bounds h00) (emod_half_bounds w _) (emod_half_bounds w _)
  have hlo := two_digits_lt (emod_half_bounds w (x0 * y0)) (emod_half_bounds w mid)
  rw [hsq] at hlo
  rw [hX, hY, schoolbook_unsigned _ x0 x1 y0 y1 hmid, hsq, halvesOf_mul_add _ hlo.1 hlo.2, wideCoreU]
  simp only [hXhi, hXlo, hYhi, hYlo, ← trunc_mul, shift h00, shift h01, shift h10, lowHalf_trunc, ← trunc_add,
    ← hmid, shift hmidLt, trunc_shiftLeft, trunc_emod_or_trunc_mul (Nat.div_le_self w 2)]

/-- The signed core gives the halves of the exact product (41_wide_multiply.md R93, R95). -/
theorem wideCoreS_eq_halvesOf (hw : Even w) (h0 : 0 < w) (X Y : BitVec w) :
    wideCoreS w X Y = halvesOf w (sval X * sval Y) := by
  have hsq := two_pow_half_mul_self hw
  obtain ⟨x1, x0, hX, hx1, hx0, hXhi, hXlo⟩ := signed_halves hw h0 X
  obtain ⟨y1, y0, hY, hy1, hy0, hYhi, hYlo⟩ := signed_halves hw h0 Y
  have h00 := partial_product_lt hx0 hy0
  have hw0 : trunc w (x0 * y0) >>> (w / 2) = trunc w (x0 * y0 / 2 ^ (w / 2)) :=
    trunc_ushiftRight h00.1 (hsq ▸ h00.2) _
  obtain ⟨t, ht⟩ : ∃ t, t = x1 * y0 + x0 * y0 / 2 ^ (w / 2) := ⟨_, rfl⟩
  have htr : InRange .s w t := ht ▸ signed_partial_inRange hw h0 hx1 hy0 (ediv_half_bounds h00)
  obtain ⟨w1, hw1⟩ : ∃ w1, w1 = x0 * y1 + t % 2 ^ (w / 2) := ⟨_, rfl⟩
  have hw1r : InRange .s w w1 := by
    rw [hw1, mul_comm]
    exact signed_partial_inRange hw h0 hy1 hx0 (emod_half_bounds w t)
  have hlo := two_digits_lt (emod_half_bounds w (x0 * y0)) (emod_half_bounds w w1)
  rw [hsq] at hlo
  have hhi : (halvesOf w (sval X * sval Y)).hi = trunc w (x1 * y1 + t / 2 ^ (w / 2) + w1 / 2 ^ (w / 2)) := by
    rw [hX, hY, schoolbook_signed _ x0 x1 y0 y1 ht hw1, hsq, halvesOf_mul_add _ hlo.1 hlo.2]
  have hhalves : halvesOf w (sval X * sval Y) = ⟨_, _⟩ :=
    congrArg₂ Halves.mk hhi (trunc_val_mul .s .s X Y)
  rw [hhalves, wideCoreS]
  simp only [hXhi, hXlo, hYhi, hYlo, ← trunc_mul, hw0, ← trunc_add, ← ht, lowHalf_trunc, ← hw1,
    trunc_sshiftRight h0 htr, trunc_sshiftRight h0 hw1r]

theorem wideCore_eq_halvesOf (hw : Even w) (h0 : 0 < w) (sg : Sg) (X Y : BitVec w) :
    wideCore sg w X Y = halvesOf w (val sg X * val sg Y) := by
  cases sg with
  | u => exact wideCoreU_eq_halvesOf hw X Y
  | s => exact wideCoreS_eq_halvesOf hw h0 X Y

/-! ## The post-step -/

/-- The post-step takes the low `2n` bits of the core's result, split at bit `n` (41_wide_multiply.md R96). -/
theorem wideAdjust_eq (h : n ≤ w) (p : Halves w) :
    wideAdjust w n p = ⟨(p.hi ++ p.lo).extractLsb' n n, (p.hi ++ p.lo).extractLsb' 0 n⟩ := by
  rw [wideAdjust]
  split_ifs with hn
  · subst hn
    rw [BitVec.setWidth_eq, BitVec.setWidth_eq, BitVec.extractLsb'_append_eq_left, BitVec.extractLsb'_append_eq_right]
  · congr 1
    · refine BitVec.eq_of_getLsbD_eq fun i hi => ?_
      rw [BitVec.getLsbD_extractLsb', BitVec.getLsbD_append, BitVec.getLsbD_setWidth, BitVec.getLsbD_and,
        getLsbD_maskPattern (by omega), BitVec.getLsbD_or, BitVec.getLsbD_shiftLeft, BitVec.getLsbD_ushiftRight]
      rcases Nat.lt_or_ge (n + i) w with hlow | hhigh
      · have hshift : i < w - n := by omega
        simp [hi, hlow, hshift]
      · have hshift : ¬i < w - n := by omega
        have hbit : i - (w - n) = n + i - w := by omega
        simp [hi, hhigh.not_gt, hshift, hbit, hi.trans_le h, BitVec.getLsbD_of_ge p.lo _ hhigh]
    · refine BitVec.eq_of_getLsbD_eq fun i hi => ?_
      rw [BitVec.getLsbD_extractLsb', BitVec.getLsbD_append, BitVec.getLsbD_setWidth, BitVec.getLsbD_and,
        getLsbD_maskPattern (by omega)]
      simp [hi, hi.trans_le h]

theorem wideAdjust_halvesOf (h : n ≤ w) (v : Int) : wideAdjust w n (halvesOf w v) = halvesOf n v := by
  rw [wideAdjust_eq h, halvesOf_append, extractLsb'_trunc_eq_halvesOf (by omega)]

/-- The algorithm from end to end gives the contract's halves (41_wide_multiply.md R90, R99): extension keeps the
operands' values. -/
theorem wmulByHalves_eq_wmul (c : Width) {sg : Sg} {x y : Int} (hx : InRange sg c.bits x) (hy : InRange sg c.bits y) :
    wmulByHalves sg c.bits x y = wmul c.bits x y := by
  have hn := width_bits_pos c
  have hw := width_le_container c
  rw [wmulByHalves, wideCore_eq_halvesOf (container_even _) (hn.trans_le hw), val_ext hw, val_ext hw, val_trunc hn hx,
    val_trunc hn hy, wideAdjust_halvesOf hw, wmul_eq_halvesOf]

/-! ## The commands -/

/-- Write-back of the contract's halves is the written-out next state (41_wide_multiply.md R97, R98). -/
theorem completeWide_wmul (s : State) (sg : Sg) (rh rd : SReg) (x y : Int) :
    s.completeWide sg rh rd (wmul s.bits x y) = s.afterWide sg rh rd (x * y) := by
  rw [wmul_eq_halvesOf]
  rfl

theorem wide_completes {s : State} {sg : Sg} {rh rd : SReg} {x y : Source} (hf : s.fault.f = false) (hne : rh ≠ rd)
    (hr : s.OperandsInRange sg x y) :
    s.wide sg rh rd x y = .next (s.afterWide sg rh rd (s.xVal sg x * s.yVal sg y)) := by
  rw [wide_eq, (rangeFault_eq_none_iff s sg x y).mpr hr, if_neg (by simp [hf]), if_neg hne, completeWide_wmul]

/-! ## The settled statements -/

/-- Settles O15: the halves are the contract's by definition, and the product fits in `2N` bits, so reading them
together gives it back. -/
theorem wideProductExact : Obligations.WideProductExact := by
  intro c sg x y hx hy
  have hn := width_bits_pos c
  have hread := val_halvesOf hn (mul_inRange hn hx hy)
  rw [← wmul_eq_halvesOf] at hread
  exact ⟨rfl, rfl, hread, by rw [← val_append hn, hread]⟩

/-- Settles O16: both cores give the halves of the exact product, and the post-step moves the split. -/
theorem halfWordAlgorithmMeetsContract : Obligations.HalfWordAlgorithmMeetsContract := by
  refine ⟨fun c sg X Y => ?_, fun c sg x y hx hy => wmulByHalves_eq_wmul c hx hy⟩
  have hw := (width_bits_pos c).trans_le (width_le_container c)
  rw [wideCore_eq_halvesOf (container_even _) hw]
  exact val_halvesOf hw (mul_inRange hw (val_inRange hw sg X) (val_inRange hw sg Y))

/-- Settles O31: a wide multiply on operands in range neither faults nor is ignored. -/
theorem wideMultiplyCommandsComplete : Obligations.WideMultiplyCommandsComplete := by
  intro s rh rd x y hf hne
  rw [exec_wmulu, exec_wmuls]
  exact ⟨wide_completes hf hne, wide_completes hf hne⟩

end Sys2Proof.Machine
end

section
/-! The overflow detector (42_overflow_detector.md R100 to R115). Each predicate is tied once to the exact result being
out of range; `Detected.Clamps` then says in one place what the three outputs are for every operation, and the
source's functions are the exact results clamped to the range. -/

namespace Sys2Proof.Machine

variable {n : Nat} {sg : Sg} {x y e v : Int}

/-! ## Ranges and clamping -/

theorem inRange_u_iff : InRange .u n v ↔ 0 ≤ v ∧ v < 2 ^ n := by
  simp only [InRange, limits_u, ulimits_min, ulimits_max, Int.le_sub_one_iff]

theorem inRange_s_iff : InRange .s n v ↔ -(2 ^ (n - 1)) ≤ v ∧ v < 2 ^ (n - 1) := by
  simp only [InRange, limits_s, slimits_min, slimits_max, Int.le_sub_one_iff]

/-- A pattern holds a value exactly when the value is in range. -/
theorem val_trunc_eq_iff (hn : 0 < n) : val sg (trunc n v) = v ↔ InRange sg n v :=
  ⟨fun h => h ▸ val_inRange hn sg _, val_trunc hn⟩

theorem limits_min_lt_max (hn : 0 < n) (sg : Sg) : (limits sg n).min < (limits sg n).max := by
  have hn2 := two_pow_pred hn
  have hpos : (0 : Int) < 2 ^ (n - 1) := by positivity
  cases sg <;> simp only [limits_u, limits_s, ulimits_min, ulimits_max, slimits_min, slimits_max] <;> omega

/-- The value clamped to the range of a signedness at width `n` (42_overflow_detector.md R113). -/
abbrev clampTo (sg : Sg) (n : Nat) (v : Int) : Int := clamp v (limits sg n).min (limits sg n).max

theorem clampTo_of_inRange (h : InRange sg n v) : clampTo sg n v = v := clamp_of_inRange h.1 h.2

theorem clampTo_of_gt (hn : 0 < n) (h : (limits sg n).max < v) : clampTo sg n v = (limits sg n).max :=
  clamp_of_gt h (limits_min_lt_max hn sg).le

theorem clampTo_inRange (hn : 0 < n) (sg : Sg) (v : Int) : InRange sg n (clampTo sg n v) := by
  have hlt := limits_min_lt_max hn sg
  unfold InRange clampTo clamp
  split_ifs <;> omega

/-- A value clamped to the minimum was below it or the minimum itself. -/
theorem clampTo_eq_min_iff (hn : 0 < n) : clampTo sg n v = (limits sg n).min ↔ v ≤ (limits sg n).min := by
  have hlt := limits_min_lt_max hn sg
  unfold clampTo clamp
  split_ifs <;> omega

/-! ## Sign bits -/

theorem msb_trunc (hn : 0 < n) (h : InRange .s n v) : (trunc n v).msb = decide (v < 0) := by
  have hval : sval (trunc n v) = v := val_trunc hn h
  rw [BitVec.msb_eq_toInt, ← sval, hval]

/-- The sign bit of a value at most one turn from zero is its sign exactly when the value is in range: out of range
the pattern is that of a value one turn away, on the other side of zero. -/
theorem msb_trunc_of_within_turn (hn : 0 < n) (h0 : -(2 ^ n) ≤ v) (h1 : v < 2 ^ n) :
    (trunc n v).msb = decide (v < 0 ↔ InRange .s n v) := by
  have hn2 := two_pow_pred hn
  by_cases hr : InRange .s n v
  · rw [msb_trunc hn hr, decide_eq_decide, iff_true_right hr]
  · by_cases hneg : v < 0
    · have hturn : trunc n v = trunc n (v + 2 ^ n) := by rw [trunc_eq_iff, Int.add_emod_right]
      rw [inRange_s_iff] at hr
      rw [hturn, msb_trunc hn (inRange_s_iff.mpr (by omega)), decide_eq_decide, inRange_s_iff]
      omega
    · have hturn : trunc n v = trunc n (v - 2 ^ n) := by rw [trunc_eq_iff, Int.sub_emod_right]
      rw [inRange_s_iff] at hr
      rw [hturn, msb_trunc hn (inRange_s_iff.mpr (by omega)), decide_eq_decide, inRange_s_iff]
      omega

/-- The sign bit repeated in a high half extends a pattern to its signed value: a shift by `n - 1` places leaves of a
value in range what a shift by `n` places leaves. -/
theorem sval_sign_mul_add_uval (hn : 0 < n) (b : BitVec n) :
    sval (b.sshiftRight (n - 1)) * 2 ^ n + uval b = sval b := by
  have hn2 := two_pow_pred hn
  have hge := sval_ge hn b
  have hlt := sval_lt hn b
  have hlow : uval b = sval b % 2 ^ n := by rw [← uval_trunc_mod, trunc_sval]
  have hshift : sval b / 2 ^ (n - 1) = sval b / 2 ^ n := by
    by_cases hneg : sval b < 0
    · rw [Int.ediv_eq_neg_one_of_neg_of_le hneg (by omega), Int.ediv_eq_neg_one_of_neg_of_le hneg (by omega)]
    · rw [Int.ediv_eq_zero_of_lt (by omega) hlt, Int.ediv_eq_zero_of_lt (by omega) (by omega)]
  rw [sval_sshiftRight, floorDiv_eq (by positivity), hshift, hlow, Int.ediv_mul_add_emod]

/-! ## The signed predicates -/

theorem ovfAdds_iff_msb (n : Nat) (x y : Int) :
    ovfAdds n x y = true ↔
      (trunc n x).msb = (trunc n y).msb ∧ (trunc n x + trunc n y).msb ≠ (trunc n x).msb := by
  simp [ovfAdds]

theorem ovfSubs_iff_msb (n : Nat) (x y : Int) :
    ovfSubs n x y = true ↔
      (trunc n x).msb ≠ (trunc n y).msb ∧ (trunc n x - trunc n y).msb = (trunc n y).msb := by
  simp [ovfSubs]

/-- Only operands of one sign can leave the range, and then the sum has the other sign (42_overflow_detector.md
R105). -/
theorem ovfAdds_iff (hn : 0 < n) (hx : InRange .s n x) (hy : InRange .s n y) :
    ovfAdds n x y = true ↔ ¬InRange .s n (x + y) := by
  have hn2 := two_pow_pred hn
  have hsx := msb_trunc hn hx
  have hsy := msb_trunc hn hy
  rw [inRange_s_iff] at hx hy
  simp only [ovfAdds_iff_msb, hsx, hsy, ← trunc_add, msb_trunc_of_within_turn hn (v := x + y) (by omega) (by omega),
    ne_eq, decide_eq_decide, inRange_s_iff]
  omega

/-- Only operands of opposite sign can leave the range, and then the difference has the subtrahend's sign
(42_overflow_detector.md R106). -/
theorem ovfSubs_iff (hn : 0 < n) (hx : InRange .s n x) (hy : InRange .s n y) :
    ovfSubs n x y = true ↔ ¬InRange .s n (x - y) := by
  have hn2 := two_pow_pred hn
  have hsx := msb_trunc hn hx
  have hsy := msb_trunc hn hy
  rw [inRange_s_iff] at hx hy
  simp only [ovfSubs_iff_msb, hsx, hsy, ← trunc_sub, msb_trunc_of_within_turn hn (v := x - y) (by omega) (by omega),
    ne_eq, decide_eq_decide, inRange_s_iff]
  omega

/-- The high half is the sign of the low half repeated exactly when the low half alone is the product
(42_overflow_detector.md R107). -/
theorem ovfMuls_iff (hn : 0 < n) (hx : InRange .s n x) (hy : InRange .s n y) :
    ovfMuls n x y = true ↔ ¬InRange .s n (x * y) := by
  have hprod : sval (wmul n x y).hi * 2 ^ n + uval (wmul n x y).lo = x * y := by
    rw [wmul_eq_halvesOf]
    exact (val_append hn .s _ _).symm.trans (val_halvesOf hn (mul_inRange hn hx hy))
  have hsign := sval_sign_mul_add_uval hn (wmul n x y).lo
  have hlo : (wmul n x y).lo = trunc n (x * y) := by rw [wmul_eq_halvesOf]; rfl
  have hpos : (0 : Int) < 2 ^ n := by positivity
  rw [ovfMuls, decide_eq_true_eq, ne_eq, not_iff_not, ← val_trunc_eq_iff hn, ← hlo]
  calc (wmul n x y).hi = (wmul n x y).lo.sshiftRight (n - 1)
      ↔ sval (wmul n x y).hi = sval ((wmul n x y).lo.sshiftRight (n - 1)) := BitVec.toInt_inj.symm
    _ ↔ sval (wmul n x y).hi * 2 ^ n = sval ((wmul n x y).lo.sshiftRight (n - 1)) * 2 ^ n :=
        (mul_left_inj' hpos.ne').symm
    _ ↔ sval (wmul n x y).lo = x * y := by omega

/-- The one quotient out of range is the minimum divided by -1. -/
theorem not_tdiv_inRange_iff (hx : InRange .s n x) :
    ¬InRange .s n (Int.tdiv x y) ↔ y = -1 ∧ x = (slimits n).min := by
  rw [inRange_s_iff, slimits_min]
  constructor
  · exact fun h => by_contra fun hne => h (tdiv_inRange (inRange_s_iff.mp hx).1 (inRange_s_iff.mp hx).2 hne)
  · rintro ⟨rfl, rfl⟩
    rw [Int.tdiv_neg, Int.tdiv_one]
    omega

/-! ## The exclusive-or forms of the two sign rules (42_overflow_detector.md R114) -/

theorem ovfAddsTrick_eq (n : Nat) (x y : Int) : ovfAddsTrick n x y = ovfAdds n x y := by
  simp only [ovfAddsTrick, ovfAdds, ← BitVec.msb_eq_getLsbD_last, BitVec.msb_and, BitVec.msb_xor]
  generalize (trunc n x).msb = sx, (trunc n y).msb = sy, (trunc n x + trunc n y).msb = sr
  revert sx sy sr
  decide

theorem ovfSubsTrick_eq (n : Nat) (x y : Int) : ovfSubsTrick n x y = ovfSubs n x y := by
  simp only [ovfSubsTrick, ovfSubs, ← BitVec.msb_eq_getLsbD_last, BitVec.msb_and, BitVec.msb_xor]
  generalize (trunc n x).msb = sx, (trunc n y).msb = sy, (trunc n x - trunc n y).msb = sr
  revert sx sy sr
  decide

/-! ## The unsigned predicates -/

/-- What the container holds of a sum: the sum itself, or one turn less (42_overflow_detector.md R101). -/
theorem ovfAddu_iff (hw : n ≤ container n) (hx : InRange .u n x) (hy : InRange .u n y) :
    ovfAddu n x y = true ↔ ¬InRange .u n (x + y) := by
  have hpow : (2 : Int) ^ n ≤ 2 ^ container n := pow_le_pow_right₀ (by norm_num) hw
  rw [inRange_u_iff] at *
  simp only [ovfAddu, uval_trunc_mod, mask_cast, Bool.or_eq_true, decide_eq_true_eq]
  by_cases hfit : x + y < 2 ^ container n
  · rw [Int.emod_eq_of_lt (by omega) hfit]
    omega
  · rw [← Int.sub_emod_right, Int.emod_eq_of_lt (by omega) (by omega)]
    omega

/-- A difference below zero is held one turn up, above the minuend (42_overflow_detector.md R102). -/
theorem ovfSubu_iff (hw : n ≤ container n) (hx : InRange .u n x) (hy : InRange .u n y) :
    ovfSubu n x y = true ↔ ¬InRange .u n (x - y) := by
  have hpow : (2 : Int) ^ n ≤ 2 ^ container n := pow_le_pow_right₀ (by norm_num) hw
  rw [inRange_u_iff] at *
  simp only [ovfSubu, uval_trunc_mod, decide_eq_true_eq]
  by_cases hle : y ≤ x
  · rw [Int.emod_eq_of_lt (by omega) (by omega)]
    omega
  · rw [← Int.add_emod_right, Int.emod_eq_of_lt (by omega) (by omega)]
    omega

/-- The high half is zero exactly when the product fits the low half (42_overflow_detector.md R103). -/
theorem ovfMulu_iff (hn : 0 < n) (hx : InRange .u n x) (hy : InRange .u n y) :
    ovfMulu n x y = true ↔ ¬InRange .u n (x * y) := by
  have hpos : (0 : Int) < 2 ^ n := by positivity
  obtain ⟨h0, h1⟩ := inRange_u_iff.mp (mul_inRange hn hx hy)
  have hquot0 : 0 ≤ x * y / 2 ^ n := Int.ediv_nonneg h0 hpos.le
  have hquot1 : x * y / 2 ^ n < 2 ^ n := Int.ediv_lt_of_lt_mul hpos (by rwa [← pow_add])
  have hquot_lt_one : x * y / 2 ^ n < 1 ↔ x * y < 2 ^ n := by rw [Int.ediv_lt_iff_lt_mul hpos, one_mul]
  rw [ovfMulu, decide_eq_true_eq, wmul_eq_halvesOf, halvesOf, ne_eq, not_iff_not, inRange_u_iff]
  exact (trunc_eq_zero_iff (by omega) hquot1).trans (by omega)

/-- A quotient of naturals is no greater than the dividend (42_overflow_detector.md R104). -/
theorem tdiv_inRange_u (hx : InRange .u n x) (hy : InRange .u n y) : InRange .u n (Int.tdiv x y) := by
  rw [inRange_u_iff] at *
  rw [Int.tdiv_eq_ediv_of_nonneg hx.1]
  exact ⟨Int.ediv_nonneg hx.1 hy.1, (Int.ediv_le_self y hx.1).trans_lt hx.2⟩

/-! ## Boundary values -/

theorem maskPattern_self (n : Nat) : maskPattern n n = trunc n (limits .u n).max := by
  rw [maskPattern, trunc, limits_u]
  exact (BitVec.ofInt_natCast n (mask n)).symm

theorem boundS_true (hn : 0 < n) : boundS n true = trunc n (limits .s n).min := by
  have hone : (BitVec.ofBool true).setWidth n = 1 := BitVec.eq_of_toNat_eq (by simp)
  rw [limits_s, trunc_slimits_min hn, boundS, hone, add_comm]

theorem boundS_false (n : Nat) : boundS n false = trunc n (limits .s n).max := by
  simp [boundS]

/-- Out of range the sign says which limit is returned (42_overflow_detector.md R110). -/
theorem boundS_decide_neg (hn : 0 < n) (h : ¬InRange .s n e) :
    boundS n (decide (e < 0)) = trunc n (clampTo .s n e) := by
  have hzero : InRange .s n 0 := inRange_zero n .s
  by_cases hneg : e < 0
  · have hlt : e < (limits .s n).min := by by_contra hge; exact h ⟨by omega, hneg.le.trans hzero.2⟩
    rw [decide_eq_true hneg, boundS_true hn, clampTo, clamp_of_lt hlt]
  · have hgt : (limits .s n).max < e := by by_contra hle; exact h ⟨hzero.1.trans (by omega), by omega⟩
    rw [decide_eq_false hneg, boundS_false, clampTo_of_gt hn hgt]

/-! ## The detector's outputs -/

/-- The detector's outputs for an exact result `e` (42_overflow_detector.md R100, R109 to R113): whether `e` is out of
range, whether it is below, and the pattern it is clamped to. -/
structure Detected.Clamps (d : Detected n) (sg : Sg) (e : Int) : Prop where
  ovf_iff : d.ovf = true ↔ ¬InRange sg n e
  dir_iff : d.dir = true ↔ e < (limits sg n).min
  bound_eq : d.ovf = true → d.bound = some (trunc n (clampTo sg n e))

namespace Detected.Clamps

variable {d : Detected n} {b : BitVec n}

theorem ovf_eq (h : d.Clamps sg e) : d.ovf = decide (e < (limits sg n).min ∨ (limits sg n).max < e) := by
  rw [Bool.eq_iff_iff, h.ovf_iff, decide_eq_true_eq]
  unfold InRange
  omega

theorem dir_eq (h : d.Clamps sg e) : d.dir = decide (e < (limits sg n).min) := by
  rw [Bool.eq_iff_iff, h.dir_iff, decide_eq_true_eq]

/-- `dir` says that the boundary value returned is the minimum (42_overflow_detector.md R112): in range a value is
known by its pattern. -/
theorem dir_iff_bound_min (h : d.Clamps sg e) (hn : 0 < n) :
    d.dir = true ↔ d.ovf = true ∧ d.bound = some (trunc n (limits sg n).min) := by
  have hmin : InRange sg n (limits sg n).min := ⟨le_rfl, (limits_min_lt_max hn sg).le⟩
  rw [h.dir_iff]
  constructor
  · intro hlt
    have hovf : d.ovf = true := h.ovf_iff.mpr fun hr => absurd hr.1 (not_le.mpr hlt)
    rw [h.bound_eq hovf, clampTo, clamp_of_lt hlt]
    exact ⟨hovf, rfl⟩
  · rintro ⟨hovf, hbound⟩
    have hpattern := Option.some.inj ((h.bound_eq hovf).symm.trans hbound)
    have hclamp : clampTo sg n e = (limits sg n).min := by
      rw [← val_trunc hn (clampTo_inRange hn sg e), hpattern, val_trunc hn hmin]
    have hle := (clampTo_eq_min_iff hn).mp hclamp
    exact lt_of_le_of_ne hle fun heq => h.ovf_iff.mp hovf (heq ▸ hmin)

/-- The units' selection `ovf ? bound : raw` (42_overflow_detector.md R100) is the clamp of the exact result. -/
theorem val_select (h : d.Clamps sg e) (hn : 0 < n) (hb : d.bound = some b) :
    val sg (if d.ovf then b else trunc n e) = clampTo sg n e := by
  split_ifs with hovf
  · have hpattern := Option.some.inj (hb.symm.trans (h.bound_eq hovf))
    rw [hpattern, val_trunc hn (clampTo_inRange hn sg e)]
  · have hr : InRange sg n e := not_not.mp (mt h.ovf_iff.mpr hovf)
    rw [val_trunc hn hr, clampTo_of_inRange hr]

end Detected.Clamps

/-- A result that is never below the range saturates at the maximum. -/
theorem clamps_at_max (hn : 0 < n) {ovf : Bool} {b : BitVec n} (hb : b = trunc n (limits sg n).max)
    (hmin : (limits sg n).min ≤ e) (hovf : ovf = true ↔ ¬InRange sg n e) :
    (⟨ovf, false, some b⟩ : Detected n).Clamps sg e where
  ovf_iff := hovf
  dir_iff := iff_of_false Bool.false_ne_true (not_lt.mpr hmin)
  bound_eq h := by
    have hgt : (limits sg n).max < e := lt_of_not_ge fun hle => hovf.mp h ⟨hmin, hle⟩
    rw [clampTo_of_gt hn hgt, hb]

/-- A signed result out of range saturates on its own side of zero. -/
theorem clamps_at_sign (hn : 0 < n) {ovf neg : Bool} (hovf : ovf = true ↔ ¬InRange .s n e)
    (hneg : ¬InRange .s n e → neg = decide (e < 0)) :
    (⟨ovf, ovf && neg, some (boundS n neg)⟩ : Detected n).Clamps .s e where
  ovf_iff := hovf
  dir_iff := by
    rw [Bool.and_eq_true]
    constructor
    · rintro ⟨ho, hbelow⟩
      have hr := hovf.mp ho
      rw [hneg hr, decide_eq_true_eq] at hbelow
      rw [inRange_s_iff] at hr
      rw [limits_s, slimits_min]
      omega
    · intro hlt
      have hr : ¬InRange .s n e := fun hr => absurd hr.1 (not_le.mpr hlt)
      exact ⟨hovf.mpr hr, (hneg hr).trans (decide_eq_true (hlt.trans_le (inRange_zero n .s).1))⟩
  bound_eq h := by rw [hneg (hovf.mp h), boundS_decide_neg hn (hovf.mp h)]

theorem detect_add_clamps (hn : 0 < n) (hw : n ≤ container n) (hx : InRange sg n x) (hy : InRange sg n y) :
    (detect .add sg n x y).Clamps sg (x + y) := by
  cases sg with
  | u => exact clamps_at_max hn (maskPattern_self n) (add_nonneg hx.1 hy.1) (ovfAddu_iff hw hx hy)
  | s =>
    refine clamps_at_sign hn (ovfAdds_iff hn hx hy) fun hout => ?_
    rw [msb_trunc hn hx, decide_eq_decide]
    rw [inRange_s_iff] at hx hy hout
    omega

/-- An unsigned difference out of range is below zero, and both outputs are the one predicate. -/
theorem detect_sub_clamps (hn : 0 < n) (hw : n ≤ container n) (hx : InRange sg n x) (hy : InRange sg n y) :
    (detect .sub sg n x y).Clamps sg (x - y) := by
  cases sg with
  | u =>
    have hovf := ovfSubu_iff hw hx hy
    have hbelow : ¬InRange .u n (x - y) ↔ x - y < (limits .u n).min := by
      rw [inRange_u_iff] at *
      rw [limits_u, ulimits_min]
      omega
    exact ⟨hovf, hovf.trans hbelow, fun h => by
      rw [clampTo, clamp_of_lt (hbelow.mp (hovf.mp h))]
      exact congrArg some (trunc_zero n).symm⟩
  | s =>
    refine clamps_at_sign hn (ovfSubs_iff hn hx hy) fun hout => ?_
    rw [msb_trunc hn hx, decide_eq_decide]
    rw [inRange_s_iff] at hx hy hout
    omega

/-- The product of two numbers that are not zero is negative exactly when one of them is. -/
theorem decide_mul_neg (hx : x ≠ 0) (hy : y ≠ 0) :
    decide (x * y < 0) = (decide (x < 0) ^^ decide (y < 0)) := by
  rw [Bool.eq_iff_iff, decide_eq_true_eq, mul_neg_iff, Bool.xor_iff_ne, ne_eq, decide_eq_decide]
  omega

theorem detect_mul_clamps (hn : 0 < n) (hx : InRange sg n x) (hy : InRange sg n y) :
    (detect .mul sg n x y).Clamps sg (x * y) := by
  cases sg with
  | u => exact clamps_at_max hn (maskPattern_self n) (mul_nonneg hx.1 hy.1) (ovfMulu_iff hn hx hy)
  | s =>
    refine clamps_at_sign hn (ovfMuls_iff hn hx hy) fun hout => ?_
    have hne : x * y ≠ 0 := fun h => hout (h ▸ inRange_zero n .s)
    rw [msb_trunc hn hx, msb_trunc hn hy, decide_mul_neg (left_ne_zero_of_mul hne) (right_ne_zero_of_mul hne)]

/-- The unsigned quotient is always in range, and the one signed quotient out of range is above it. -/
theorem detect_div_clamps (hn : 0 < n) (hx : InRange sg n x) (hy : InRange sg n y) :
    (detect .div sg n x y).Clamps sg (Int.tdiv x y) := by
  cases sg with
  | u =>
    have hr := tdiv_inRange_u hx hy
    exact ⟨iff_of_false Bool.false_ne_true (not_not_intro hr),
      iff_of_false Bool.false_ne_true (not_lt.mpr hr.1), nofun⟩
  | s =>
    refine clamps_at_max hn rfl ?_ ((ovfDivs_iff hn hx hy).trans (not_tdiv_inRange_iff hx).symm)
    by_contra hlt
    obtain ⟨rfl, rfl⟩ := (not_tdiv_inRange_iff hx).mp fun hr => hlt hr.1
    rw [Int.tdiv_neg, Int.tdiv_one, limits_s, slimits_min] at hlt
    have hpos : (0 : Int) < 2 ^ (n - 1) := by positivity
    omega

/-- The detector of every operation clamps the exact result (42_overflow_detector.md R113). -/
theorem detect_clamps (hn : 0 < n) (hw : n ≤ container n) (op : ArithOp) (hx : InRange sg n x) (hy : InRange sg n y) :
    (detect op sg n x y).Clamps sg (exact op x y) := by
  cases op with
  | add => exact detect_add_clamps hn hw hx hy
  | sub => exact detect_sub_clamps hn hw hx hy
  | mul => exact detect_mul_clamps hn hx hy
  | div => exact detect_div_clamps hn hx hy

/-! ## The source's functions as the units' selection -/

theorem uval_maskPattern_self (n : Nat) : uval (maskPattern n n) = mask n := by
  rw [maskPattern_self, limits_u, ulimits_max, mask_cast]
  exact uval_trunc (sub_nonneg.mpr (one_le_pow₀ one_le_two)) (sub_one_lt _)

/-- The container's result cut by the mask is the truncated exact result. -/
theorem uval_trunc_and_mask {w : Nat} (hw : n ≤ w) (v : Int) :
    uval (trunc w v &&& maskPattern w n) = uval (trunc n v) := by
  rw [uval_and_mask hw, uval_trunc_mod, uval_trunc_mod, Int.emod_emod_of_dvd v (pow_dvd_pow 2 hw)]

theorem addu_eq_select (hw : n ≤ container n) (x y : Int) :
    addu n x y = val .u (if ovfAddu n x y then maskPattern n n else trunc n (x + y)) := by
  rw [addu, uval_trunc_and_mask hw, ← uval_maskPattern_self, ← apply_ite uval]
  rfl

theorem subu_eq_select (hw : n ≤ container n) (x y : Int) :
    subu n x y = val .u (if ovfSubu n x y then 0 else trunc n (x - y)) := by
  rw [subu, uval_trunc_and_mask hw, val, apply_ite uval]
  rfl

theorem mulu_eq_select (n : Nat) (x y : Int) :
    mulu n x y = val .u (if ovfMulu n x y then maskPattern n n else trunc n (x * y)) := by
  rw [mulu, wmul_eq_halvesOf, ← uval_maskPattern_self, ← apply_ite uval]
  rfl

theorem adds_eq_select (n : Nat) (x y : Int) :
    adds n x y = val .s (if ovfAdds n x y then boundS n (trunc n x).msb else trunc n (x + y)) := by
  rw [trunc_add]
  rfl

theorem subs_eq_select (n : Nat) (x y : Int) :
    subs n x y = val .s (if ovfSubs n x y then boundS n (trunc n x).msb else trunc n (x - y)) := by
  rw [trunc_sub]
  rfl

theorem muls_eq_select (n : Nat) (x y : Int) :
    muls n x y =
      val .s (if ovfMuls n x y then boundS n ((trunc n x).msb ^^ (trunc n y).msb) else trunc n (x * y)) := by
  rw [muls, wmul_eq_halvesOf]
  rfl

/-- The unsigned quotient needs no clamp. -/
theorem divu_eq_clampTo (hx : InRange .u n x) (hy : InRange .u n y) (h : y ≠ 0) :
    divu n x y = some (clampTo .u n (Int.tdiv x y)) := by
  rw [clampTo_of_inRange (tdiv_inRange_u hx hy), Int.tdiv_eq_ediv_of_nonneg hx.1, divu, if_neg h, floorDiv_eq hy.1]

/-- In the one case out of range the dividend moved by one gives the maximum (44_mul_div.md R136). -/
theorem divs_eq_clampTo (hn : 0 < n) (hx : InRange .s n x) (hy : InRange .s n y) (h : y ≠ 0) :
    divs n x y = some (clampTo .s n (Int.tdiv x y)) := by
  have hovf : ovfDivs n x y = true ↔ ¬InRange .s n (Int.tdiv x y) :=
    (ovfDivs_iff hn hx hy).trans (not_tdiv_inRange_iff hx).symm
  rw [divs, if_neg h, tdiv_eq]
  split_ifs with ho
  · obtain ⟨rfl, rfl⟩ := (ovfDivs_iff hn hx hy).mp ho
    simp only [Int.tdiv_neg, Int.tdiv_one, slimits_min]
    rw [clampTo_of_gt hn (by rw [limits_s, slimits_max]; omega), limits_s, slimits_max]
    congr 1
    omega
  · rw [add_zero, clampTo_of_inRange (not_not.mp (mt hovf.mpr ho))]

/-- Every function of the source is the exact result clamped to the range (42_overflow_detector.md R113). -/
theorem sourceFunction_eq_clampTo (hn : 0 < n) (hw : n ≤ container n) {op : ArithOp} (hx : InRange sg n x)
    (hy : InRange sg n y) (h : op = .div → y ≠ 0) :
    sourceFunction op sg n x y = some (clampTo sg n (exact op x y)) := by
  have hc := detect_clamps hn hw op hx hy
  cases op <;> cases sg
  case add.u => exact congrArg some ((addu_eq_select hw x y).trans (hc.val_select hn rfl))
  case add.s => exact congrArg some ((adds_eq_select n x y).trans (hc.val_select hn rfl))
  case sub.u => exact congrArg some ((subu_eq_select hw x y).trans (hc.val_select hn rfl))
  case sub.s => exact congrArg some ((subs_eq_select n x y).trans (hc.val_select hn rfl))
  case mul.u => exact congrArg some ((mulu_eq_select n x y).trans (hc.val_select hn rfl))
  case mul.s => exact congrArg some ((muls_eq_select n x y).trans (hc.val_select hn rfl))
  case div.u => exact divu_eq_clampTo hx hy (h rfl)
  case div.s => exact divs_eq_clampTo hn hx hy (h rfl)

/-! ## The settled statements -/

/-- Settles O10: each exact condition by its predicate's lemma; the formulas are the predicates' definitions. -/
theorem signedOverflowPredicatesExact : Obligations.SignedOverflowPredicatesExact := by
  intro c x y hx hy
  have hn := width_bits_pos c
  exact ⟨ovfAdds_iff hn hx hy, ovfSubs_iff hn hx hy, ovfMuls_iff hn hx hy, ovfDivs_iff hn hx hy,
    ovfAdds_iff_msb c.bits x y, ovfSubs_iff_msb c.bits x y, decide_eq_true_iff, decide_eq_true_iff⟩

/-- Settles O12: the detector clamps the exact result, and the function is its selection. -/
theorem saturationIsClampOfExact : Obligations.SaturationIsClampOfExact := by
  intro c op sg x y hx hy hdiv
  have hn := width_bits_pos c
  have hw := width_le_container c
  have hc := detect_clamps hn hw op hx hy
  exact ⟨sourceFunction_eq_clampTo hn hw hx hy hdiv, hc.ovf_eq, hc.dir_eq, hc.bound_eq⟩

/-- Settles O13: range closure, so the pattern holds the result. -/
theorem resultsStayInRange : Obligations.ResultsStayInRange := by
  intro c op sg x y q hx hy hq
  have hn := width_bits_pos c
  have hr := sourceFunction_inRange hn hx hy hq
  exact ⟨hr, val_trunc hn hr⟩

/-- Settles O47: the first clause holds of any detector that clamps; the table is the detector's definition, case by
case. -/
theorem directionIsTheSideOfTheClamp : Obligations.DirectionIsTheSideOfTheClamp := by
  intro c op sg x y hx hy
  have hn := width_bits_pos c
  refine ⟨(detect_clamps hn (width_le_container c) op hx hy).dir_iff_bound_min hn, ?_, ?_⟩
  · cases op <;> cases sg <;> rfl
  · rintro rfl
    exact ⟨msb_trunc hn hx, msb_trunc hn hy⟩

/-- Settles O11: both expressions are read at the sign bit, where they are the rules on the three signs. -/
theorem signRuleBitTricksAgree : Obligations.SignRuleBitTricksAgree := by
  intro c x y
  exact ⟨ovfAddsTrick_eq c.bits x y, ovfSubsTrick_eq c.bits x y⟩

end Sys2Proof.Machine
end

section
/-! The adder and the subtractor (43_add_sub.md R120 to R128). An arithmetic command completes with its exact result
clamped to the range; on the side that the operands cannot leave, the clamp is a minimum or a maximum. -/

namespace Sys2Proof.Machine

variable {n : Nat} {sg : Sg} {op : ArithOp} {v : Int}

/-! ## The clamp -/

theorem clampTo_eq_self_iff (hn : 0 < n) : clampTo sg n v = v ↔ InRange sg n v :=
  ⟨fun h => h ▸ clampTo_inRange hn sg v, clampTo_of_inRange⟩

/-- A result that is not negative can leave the unsigned range only at the top. -/
theorem clampTo_u_of_nonneg (h : 0 ≤ v) : clampTo .u n v = min v (2 ^ n - 1) := by
  simp only [clampTo, limits_u, ulimits_min, ulimits_max, clamp]
  split_ifs <;> omega

/-- A result no greater than the maximum can leave the unsigned range only at zero. -/
theorem clampTo_u_of_lt (h : v < 2 ^ n) : clampTo .u n v = max v 0 := by
  simp only [clampTo, limits_u, ulimits_min, ulimits_max, clamp]
  split_ifs <;> omega

/-! ## The formulas on the container (43_add_sub.md R120, R124) -/

theorem ovfAddu_iff_container (n : Nat) (x y : Int) :
    ovfAddu n x y = true ↔
      uval (trunc (container n) (x + y)) < x ∨ uval (trunc (container n) (x + y)) > mask n := by
  simp only [ovfAddu, Bool.or_eq_true, decide_eq_true_eq]

theorem ovfSubu_iff_container (n : Nat) (x y : Int) :
    ovfSubu n x y = true ↔ uval (trunc (container n) (x - y)) > x := decide_eq_true_iff

/-! ## The four functions are exact up to the clamp -/

section Exact

variable {x y : Int}

theorem addu_eq_min (hn : 0 < n) (hw : n ≤ container n) (hx : InRange .u n x) (hy : InRange .u n y) :
    addu n x y = min (x + y) (2 ^ n - 1) := by
  rw [← clampTo_u_of_nonneg (add_nonneg hx.1 hy.1)]
  exact Option.some.inj (sourceFunction_eq_clampTo (op := .add) hn hw hx hy nofun)

theorem subu_eq_max (hn : 0 < n) (hw : n ≤ container n) (hx : InRange .u n x) (hy : InRange .u n y) :
    subu n x y = max (x - y) 0 := by
  have hlt : x - y < 2 ^ n := (sub_le_self x hy.1).trans_lt (inRange_u_iff.mp hx).2
  rw [← clampTo_u_of_lt hlt]
  exact Option.some.inj (sourceFunction_eq_clampTo (op := .sub) hn hw hx hy nofun)

theorem adds_eq_clampTo (hn : 0 < n) (hw : n ≤ container n) (hx : InRange .s n x) (hy : InRange .s n y) :
    adds n x y = clampTo .s n (x + y) :=
  Option.some.inj (sourceFunction_eq_clampTo (op := .add) hn hw hx hy nofun)

theorem subs_eq_clampTo (hn : 0 < n) (hw : n ≤ container n) (hx : InRange .s n x) (hy : InRange .s n y) :
    subs n x y = clampTo .s n (x - y) :=
  Option.some.inj (sourceFunction_eq_clampTo (op := .sub) hn hw hx hy nofun)

/-! ## Laws of the source's functions (43_add_sub.md R128, 44_mul_div.md R140) -/

/-- A function commutes where its exact operation does; division, which has no value at zero, is left out. -/
theorem sourceFunction_comm (hn : 0 < n) (hw : n ≤ container n) (hx : InRange sg n x) (hy : InRange sg n y)
    (hop : op ≠ .div) (he : exact op x y = exact op y x) :
    sourceFunction op sg n x y = sourceFunction op sg n y x := by
  rw [sourceFunction_eq_clampTo hn hw hx hy (absurd · hop), sourceFunction_eq_clampTo hn hw hy hx (absurd · hop), he]

/-- Where the exact operation gives back its first operand, which is in range, so does the function. -/
theorem sourceFunction_eq_left (hn : 0 < n) (hw : n ≤ container n) (hx : InRange sg n x) (hy : InRange sg n y)
    (hdiv : op = .div → y ≠ 0) (he : exact op x y = x) : sourceFunction op sg n x y = some x := by
  rw [sourceFunction_eq_clampTo hn hw hx hy hdiv, he, clampTo_of_inRange hx]

end Exact

theorem inRange_one (hn : 2 ≤ n) (sg : Sg) : InRange sg n 1 := by
  have hu : (2 : Int) ^ 1 ≤ 2 ^ n := pow_le_pow_right₀ (by norm_num) (by omega)
  have hs : (2 : Int) ^ 1 ≤ 2 ^ (n - 1) := pow_le_pow_right₀ (by norm_num) (by omega)
  cases sg with
  | u => rw [inRange_u_iff]; omega
  | s => rw [inRange_s_iff]; omega

/-! ## Completion of the arithmetic commands -/

section Complete

variable {x y : Source} {s : State}

/-- On operands in range an arithmetic command completes with the clamped exact result; `V` says that the clamp
changed it, `D` that it was below the range (30_encoding.md R59). -/
theorem exec_arithInstr_clamps (op : ArithOp) (sg : Sg) (rd : SReg) (hf : s.fault.f = false)
    (hr : s.OperandsInRange sg x y) (hdiv : op = .div → s.yVal sg y ≠ 0) {e : Int}
    (he : exact op (s.xVal sg x) (s.yVal sg y) = e) :
    exec (arithInstr op sg rd x y) s =
      .next (s.afterArith sg rd (clampTo sg s.bits e) (decide (clampTo sg s.bits e ≠ e))
        (decide (e < (limits sg s.bits).min))) := by
  have hn := width_bits_pos s.width
  have hw := width_le_container s.width
  have hx := xVal_inRange s hr
  have hy := yVal_inRange s hr
  have hc : (detect op sg s.bits (s.xVal sg x) (s.yVal sg y)).Clamps sg e := he ▸ detect_clamps hn hw op hx hy
  have hv : (detect op sg s.bits (s.xVal sg x) (s.yVal sg y)).ovf = decide (clampTo sg s.bits e ≠ e) := by
    rw [Bool.eq_iff_iff, hc.ovf_iff, decide_eq_true_eq, ne_eq, clampTo_eq_self_iff hn]
  rw [exec_arithInstr_completes op sg rd hf hr (sourceFunction_eq_clampTo hn hw hx hy hdiv), he, hv, hc.dir_eq]

/-- An unsigned result that is not negative saturates only at the maximum. -/
theorem exec_arithInstr_u_of_nonneg (op : ArithOp) (rd : SReg) (hf : s.fault.f = false)
    (hr : s.OperandsInRange .u x y) (hdiv : op = .div → s.yVal .u y ≠ 0) {e : Int}
    (he : exact op (s.xVal .u x) (s.yVal .u y) = e) (h0 : 0 ≤ e) :
    exec (arithInstr op .u rd x y) s =
      .next (s.afterArith .u rd (min e (2 ^ s.bits - 1)) (decide (e > 2 ^ s.bits - 1)) false) := by
  have hv : min e (2 ^ s.bits - 1) ≠ e ↔ e > 2 ^ s.bits - 1 := by rw [ne_eq, min_eq_left_iff, not_le]
  have hd : ¬e < (limits .u s.bits).min := not_lt.mpr h0
  rw [exec_arithInstr_clamps op .u rd hf hr hdiv he, clampTo_u_of_nonneg h0, decide_eq_decide.mpr hv,
    decide_eq_false hd]

/-- A signed result saturates on either side, at the limits written out (40_foundation_scalar.md R73). -/
theorem exec_arithInstr_s (op : ArithOp) (rd : SReg) (hf : s.fault.f = false) (hr : s.OperandsInRange .s x y)
    (hdiv : op = .div → s.yVal .s y ≠ 0) {e : Int} (he : exact op (s.xVal .s x) (s.yVal .s y) = e) :
    exec (arithInstr op .s rd x y) s =
      .next (s.afterArith .s rd (clamp e (-(2 ^ (s.bits - 1))) (2 ^ (s.bits - 1) - 1))
        (decide (clamp e (-(2 ^ (s.bits - 1))) (2 ^ (s.bits - 1) - 1) ≠ e)) (decide (e < -(2 ^ (s.bits - 1))))) := by
  rw [exec_arithInstr_clamps op .s rd hf hr hdiv he, clampTo, limits_s, slimits_eq]

/-- An unsigned difference saturates only at zero, and both flags say that the subtrahend was the greater. -/
theorem exec_arithInstr_sub_u (rd : SReg) (hf : s.fault.f = false) (hr : s.OperandsInRange .u x y) :
    exec (arithInstr .sub .u rd x y) s =
      .next (s.afterArith .u rd (max (s.xVal .u x - s.yVal .u y) 0) (decide (s.xVal .u x < s.yVal .u y))
        (decide (s.xVal .u x < s.yVal .u y))) := by
  have hlt : s.xVal .u x - s.yVal .u y < 2 ^ s.bits :=
    (sub_le_self _ (yVal_inRange s hr).1).trans_lt (inRange_u_iff.mp (xVal_inRange s hr)).2
  have hv : max (s.xVal .u x - s.yVal .u y) 0 ≠ s.xVal .u x - s.yVal .u y ↔ s.xVal .u x < s.yVal .u y := by
    rw [ne_eq, max_eq_left_iff, not_le, sub_neg]
  have hd : s.xVal .u x - s.yVal .u y < (limits .u s.bits).min ↔ s.xVal .u x < s.yVal .u y := sub_neg
  rw [exec_arithInstr_clamps .sub .u rd hf hr nofun (e := s.xVal .u x - s.yVal .u y) rfl, clampTo_u_of_lt hlt,
    decide_eq_decide.mpr hv, decide_eq_decide.mpr hd]

end Complete

/-! ## The settled statements -/

/-- Settles O6: each formula is the function's definition with its predicate read as a condition; each exact form is
the clamp on the one side the result can leave. -/
theorem unsignedSumAndDifferenceExact : Obligations.UnsignedSumAndDifferenceExact := by
  intro c x y hx hy
  have hn := width_bits_pos c
  have hw := width_le_container c
  exact ⟨if_congr (ovfAddu_iff_container c.bits x y) rfl rfl, addu_eq_min hn hw hx hy,
    if_congr (ovfSubu_iff_container c.bits x y) rfl rfl, subu_eq_max hn hw hx hy⟩

/-- Settles O7: each formula is the function's definition with the sign rule read as a condition. -/
theorem signedSumAndDifferenceExact : Obligations.SignedSumAndDifferenceExact := by
  intro c x y hx hy
  have hn := width_bits_pos c
  have hw := width_le_container c
  exact ⟨⟨congrArg sval (if_congr (ovfAdds_iff_msb c.bits x y) rfl rfl),
      congrArg sval (if_congr (ovfSubs_iff_msb c.bits x y) rfl rfl)⟩,
    adds_eq_clampTo hn hw hx hy, subs_eq_clampTo hn hw hx hy⟩

/-- Settles O14: the laws are those of the integers, carried over by the clamp. -/
theorem commutativityAndIdentities : Obligations.CommutativityAndIdentities := by
  intro c sg x y hx hy
  have hn := width_bits_pos c
  have hw := width_le_container c
  have h0 := inRange_zero c.bits sg
  have h1 := inRange_one (le_trans (by norm_num) c.four_le) sg
  exact ⟨sourceFunction_comm hn hw hx hy nofun (add_comm x y), sourceFunction_comm hn hw hx hy nofun (mul_comm x y),
    sourceFunction_eq_left hn hw hx h0 nofun (add_zero x), sourceFunction_eq_left hn hw hx h0 nofun (sub_zero x),
    sourceFunction_eq_left hn hw hx h1 nofun (mul_one x),
    sourceFunction_eq_left hn hw hx h1 (fun _ => one_ne_zero) (Int.tdiv_one x)⟩

/-- Settles O27: a sum of naturals is not negative; the signed sum needs both sides. -/
theorem adderCommandsComplete : Obligations.AdderCommandsComplete := by
  refine ⟨fun s rd x y hf hr => ?_, fun s rd x y hf hr => exec_arithInstr_s .add rd hf hr nofun rfl⟩
  exact exec_arithInstr_u_of_nonneg .add rd hf hr nofun rfl (add_nonneg (xVal_inRange s hr).1 (yVal_inRange s hr).1)

/-- Settles O28: a difference of naturals in range is below the maximum; the signed difference needs both sides. -/
theorem subtractorCommandsComplete : Obligations.SubtractorCommandsComplete :=
  ⟨fun _ rd _ _ hf hr => exec_arithInstr_sub_u rd hf hr,
    fun _ rd _ _ hf hr => exec_arithInstr_s .sub rd hf hr nofun rfl⟩

end Sys2Proof.Machine
end

section
/-! The multiplier and the divider (44_mul_div.md R130 to R140). A product is clamped like a sum; a quotient leaves the
range in one case only, the minimum divided by -1, and then above the maximum. -/

namespace Sys2Proof.Machine

variable {n : Nat} {x y : Int}

/-! ## Products -/

theorem mulu_eq_min (hn : 0 < n) (hw : n ≤ container n) (hx : InRange .u n x) (hy : InRange .u n y) :
    mulu n x y = min (x * y) (2 ^ n - 1) := by
  rw [← clampTo_u_of_nonneg (mul_nonneg hx.1 hy.1)]
  exact Option.some.inj (sourceFunction_eq_clampTo (op := .mul) hn hw hx hy nofun)

theorem muls_eq_clampTo (hn : 0 < n) (hw : n ≤ container n) (hx : InRange .s n x) (hy : InRange .s n y) :
    muls n x y = clampTo .s n (x * y) :=
  Option.some.inj (sourceFunction_eq_clampTo (op := .mul) hn hw hx hy nofun)

/-! ## Quotients -/

/-- No quotient by zero is defined (44_mul_div.md R138, log 9). -/
theorem divu_zero (n : Nat) (x : Int) : divu n x 0 = none := if_pos rfl

theorem divs_zero (n : Nat) (x : Int) : divs n x 0 = none := if_pos rfl

theorem divu_eq_ediv (hx : InRange .u n x) (hy : InRange .u n y) (h : y ≠ 0) : divu n x y = some (x / y) := by
  rw [divu_eq_clampTo hx hy h, clampTo_of_inRange (tdiv_inRange_u hx hy), Int.tdiv_eq_ediv_of_nonneg hx.1]

/-- The one quotient that leaves the range is one above the maximum. -/
theorem max_lt_tdiv (h : x = (slimits n).min ∧ y = -1) : (limits .s n).max < Int.tdiv x y := by
  obtain ⟨rfl, rfl⟩ := h
  rw [Int.tdiv_neg, Int.tdiv_one, limits_s, slimits_min, slimits_max]
  omega

theorem tdiv_inRange_s (hx : InRange .s n x) (h : ¬(x = (slimits n).min ∧ y = -1)) : InRange .s n (Int.tdiv x y) :=
  by_contra fun hout => h ((not_tdiv_inRange_iff hx).mp hout).symm

theorem clampTo_tdiv (hn : 0 < n) (hx : InRange .s n x) :
    clampTo .s n (Int.tdiv x y) = if x = (slimits n).min ∧ y = -1 then (slimits n).max else Int.tdiv x y := by
  split_ifs with h
  · exact clampTo_of_gt hn (max_lt_tdiv h)
  · exact clampTo_of_inRange (tdiv_inRange_s hx h)

/-! ## Completion by where the exact result lies -/

section Complete

variable {x y : Source} {s : State} {op : ArithOp} {sg : Sg} {e : Int}

/-- A result in range is written as it is, and both flags are cleared. -/
theorem exec_arithInstr_of_inRange (rd : SReg) (hf : s.fault.f = false) (hr : s.OperandsInRange sg x y)
    (hdiv : op = .div → s.yVal sg y ≠ 0) (he : exact op (s.xVal sg x) (s.yVal sg y) = e)
    (hin : InRange sg s.bits e) :
    exec (arithInstr op sg rd x y) s = .next (s.afterArith sg rd e false false) := by
  rw [exec_arithInstr_clamps op sg rd hf hr hdiv he, clampTo_of_inRange hin, decide_eq_false (not_not.mpr rfl),
    decide_eq_false (not_lt.mpr hin.1)]

/-- A result above the range is written as the maximum, with `V` set and `D` cleared. -/
theorem exec_arithInstr_of_gt (rd : SReg) (hf : s.fault.f = false) (hr : s.OperandsInRange sg x y)
    (hdiv : op = .div → s.yVal sg y ≠ 0) (he : exact op (s.xVal sg x) (s.yVal sg y) = e)
    (hgt : (limits sg s.bits).max < e) :
    exec (arithInstr op sg rd x y) s = .next (s.afterArith sg rd (limits sg s.bits).max true false) := by
  have hn := width_bits_pos s.width
  have hmin : ¬e < (limits sg s.bits).min := not_lt.mpr ((limits_min_lt_max hn sg).trans hgt).le
  rw [exec_arithInstr_clamps op sg rd hf hr hdiv he, clampTo_of_gt hn hgt, decide_eq_true hgt.ne,
    decide_eq_false hmin]

end Complete

/-! ## The settled statements -/

/-- Settles O8: each formula is the function's definition with its predicate read as a test of the high half; each
exact form is the clamp of the product. -/
theorem productsExact : Obligations.ProductsExact := by
  refine ⟨fun c x y hx hy => ?_, fun c x y hx hy => ?_⟩
  all_goals
    have hn := width_bits_pos c
    have hw := width_le_container c
  · exact ⟨if_congr decide_eq_true_iff rfl rfl, mulu_eq_min hn hw hx hy⟩
  · exact ⟨congrArg sval (if_congr decide_eq_true_iff rfl rfl), muls_eq_clampTo hn hw hx hy⟩

/-- Settles O9: the floor inequalities are those of the integer quotient by a positive divisor; the signed quotient is
clamped in its one case out of range. -/
theorem quotientsExact : Obligations.QuotientsExact := by
  refine ⟨fun c x y hx hy hne => ?_, fun c x y hx hy hne => ?_, fun n x => ⟨divu_zero n x, divs_zero n x⟩⟩
  · have hpos : 0 < y := lt_of_le_of_ne hy.1 hne.symm
    exact ⟨x / y, divu_eq_ediv hx hy hne, Int.ediv_mul_le x hne, Int.lt_ediv_add_one_mul_self x hpos,
      Int.ediv_nonneg hx.1 hpos.le, Int.ediv_le_self y hx.1⟩
  · have hn := width_bits_pos c
    have hclamp := divs_eq_clampTo hn hx hy hne
    exact ⟨by rw [hclamp, clampTo_tdiv hn hx], hclamp⟩

/-- Settles O29: a product of naturals is not negative; the signed product needs both sides. -/
theorem multiplierCommandsComplete : Obligations.MultiplierCommandsComplete := by
  refine ⟨fun s rd x y hf hr => ?_, fun s rd x y hf hr => exec_arithInstr_s .mul rd hf hr nofun rfl⟩
  exact exec_arithInstr_u_of_nonneg .mul rd hf hr nofun rfl (mul_nonneg (xVal_inRange s hr).1 (yVal_inRange s hr).1)

/-- Settles O30: the unsigned quotient is in range; the signed one is too, except for the minimum divided by -1, which
is above it. -/
theorem dividerCommandsComplete : Obligations.DividerCommandsComplete := by
  refine ⟨fun s rd x y hf hr hne => ?_, fun s rd x y hf hr hne => ?_⟩
  all_goals have hx := xVal_inRange s hr
  · rw [← Int.tdiv_eq_ediv_of_nonneg hx.1]
    exact exec_arithInstr_of_inRange (op := .div) rd hf hr (fun _ => hne) rfl (tdiv_inRange_u hx (yVal_inRange s hr))
  · rw [← slimits_min, ← slimits_max]
    split_ifs with hmin
    · exact exec_arithInstr_of_gt (op := .div) rd hf hr (fun _ => hne) rfl (max_lt_tdiv hmin)
    · exact exec_arithInstr_of_inRange (op := .div) rd hf hr (fun _ => hne) rfl (tdiv_inRange_s hx hmin)

end Sys2Proof.Machine
end

section
/-! The fault statements (60_exceptions.md R150 to R161): when a command faults and with which cause, what fault entry
changes, and what a block does once it is faulted. Completion is cited from the statements on the commands; what is
new here is the faulting half, and the run of a faulted block. -/

namespace Sys2Proof.Machine

/-! ## When a command faults (60_exceptions.md R151 to R158) -/

/-- The result `r` of a command from `s` is as its cause says: fault entry with that cause, or, where there is none, a
next state with `FAULT` left alone. -/
def FaultsAs (s : State) (cause : Option Cause) (r : Result) : Prop :=
  match cause with
  | some c => r = .next (s.afterFault c.code)
  | none => ∃ t, r = .next t ∧ t.fault = s.fault

section Faults

variable {s : State} {op : ArithOp} {sg : Sg} {x y : Source}

/-- A command with an effect that leaves `FAULT` alone has no cause to fault, overflow or not (60_exceptions.md
R161). -/
theorem command_faultsAs_none {e : State} (hf : s.fault.f = false) (he : e.fault = s.fault) :
    FaultsAs s none (s.command e) :=
  ⟨e, command_of_good s e hf, he⟩

/-- A zero divisor is `DIVZERO` under either view (60_exceptions.md R153). -/
theorem saturatingDivider_zero (sg : Sg) (n : Nat) (x : Int) : saturatingDivider sg n x 0 = .error .divzero := by
  cases sg <;> rfl

theorem exec_arithInstr_of_rangeFault (op : ArithOp) (rd : SReg) {c : Cause} (hf : s.fault.f = false)
    (hc : s.rangeFault sg x y = some c) :
    exec (arithInstr op sg rd x y) s = .next (s.afterFault c.code) := by
  rw [exec_arithInstr, arith_eq, hf, hc]
  rfl

theorem exec_arithInstr_div_zero (rd : SReg) (hf : s.fault.f = false) (hr : s.rangeFault sg x y = none)
    (hy : s.yVal sg y = 0) :
    exec (arithInstr .div sg rd x y) s = .next (s.afterFault Cause.divzero.code) := by
  rw [exec_arithInstr, arith_eq, hf, hr, hy, arithUnit, saturatingDivider_zero]
  rfl

theorem arithInstr_faultsAs_none (rd : SReg) (hf : s.fault.f = false) (hr : s.rangeFault sg x y = none)
    (hdiv : op = .div → s.yVal sg y ≠ 0) : FaultsAs s none (exec (arithInstr op sg rd x y) s) :=
  ⟨_, exec_arithInstr_clamps op sg rd hf ((rangeFault_eq_none_iff s sg x y).mp hr) hdiv rfl, afterArith_fault ..⟩

/-- A sum, a difference and a product fault on a range only. -/
theorem arithInstr_faultsAs_rangeFault (op : ArithOp) (rd : SReg) (hop : op ≠ .div) (hf : s.fault.f = false) :
    FaultsAs s (s.rangeFault sg x y) (exec (arithInstr op sg rd x y) s) := by
  cases hr : s.rangeFault sg x y with
  | some c => exact exec_arithInstr_of_rangeFault op rd hf hr
  | none => exact arithInstr_faultsAs_none rd hf hr fun h => absurd h hop

/-- A division faults on a range first, then on a zero divisor. -/
theorem div_faultsAs_divFault (rd : SReg) (hf : s.fault.f = false) :
    FaultsAs s (s.divFault sg x y) (exec (arithInstr .div sg rd x y) s) := by
  unfold State.divFault
  cases hr : s.rangeFault sg x y with
  | some c => exact exec_arithInstr_of_rangeFault .div rd hf hr
  | none =>
    by_cases hy : s.yVal sg y = 0
    · simp only [if_pos hy]
      exact exec_arithInstr_div_zero rd hf hr hy
    · simp only [if_neg hy]
      exact arithInstr_faultsAs_none rd hf hr fun _ => hy

/-- A wide multiply faults on equal destinations first, then on a range. -/
theorem wide_faultsAs_wideFault (rh rd : SReg) (hf : s.fault.f = false) :
    FaultsAs s (s.wideFault sg rh rd x y) (s.wide sg rh rd x y) := by
  unfold State.wideFault
  by_cases hd : rh = rd
  · rw [wide_eq, hf, if_pos hd, if_pos hd]
    rfl
  · rw [if_neg hd]
    cases hr : s.rangeFault sg x y with
    | some c => rw [wide_eq, hf, if_neg hd, hr]; rfl
    | none => exact ⟨_, wide_completes hf hd ((rangeFault_eq_none_iff s sg x y).mp hr), rfl⟩

end Faults

/-- In a state that is not faulted every command faults as its cause says. -/
theorem exec_faultsAs_causeOf (i : Instr) {s : State} (hf : s.fault.f = false) :
    FaultsAs s (s.causeOf i) (exec i s) := by
  cases i with
  | addu rd x y => exact arithInstr_faultsAs_rangeFault .add rd nofun hf
  | adds rd x y => exact arithInstr_faultsAs_rangeFault .add rd nofun hf
  | subu rd x y => exact arithInstr_faultsAs_rangeFault .sub rd nofun hf
  | subs rd x y => exact arithInstr_faultsAs_rangeFault .sub rd nofun hf
  | mulu rd x y => exact arithInstr_faultsAs_rangeFault .mul rd nofun hf
  | muls rd x y => exact arithInstr_faultsAs_rangeFault .mul rd nofun hf
  | divu rd x y => exact div_faultsAs_divFault rd hf
  | divs rd x y => exact div_faultsAs_divFault rd hf
  | wmulu rh rd x y => exact wide_faultsAs_wideFault rh rd hf
  | wmuls rh rd x y => exact wide_faultsAs_wideFault rh rd hf
  | set rd => exact command_faultsAs_none hf (afterSet_fault s rd)
  | getu ra => exact command_faultsAs_none hf (afterAnswer_fault s _)
  | gets ra => exact command_faultsAs_none hf (afterAnswer_fault s _)

/-! ## Fault entry (60_exceptions.md R156) -/

/-- Of the ends of a command only fault entry writes `FAULT`. -/
theorem CommandEnd.fault_or_fault_eq {s t : State} (h : CommandEnd s t) :
    (∃ c : Cause, t = s.afterFault c.code) ∨ t.fault = s.fault := by
  cases h with
  | fault c => exact .inl ⟨c, rfl⟩
  | arith op sg rd x y res => exact .inr (afterArith_fault ..)
  | wide sg rh rd p => exact .inr (completeWide_fault ..)
  | set rd => exact .inr (afterSet_fault ..)
  | answer r => exact .inr (afterAnswer_fault ..)

/-! ## The faulted state (60_exceptions.md R157) -/

theorem ExecEnd.eq_afterAnswer_of_faulted {i : Instr} {s t : State} (h : ExecEnd i s t) (hf : s.fault.f = true) :
    t = s.afterAnswer 0 := by
  cases h with
  | ignored => rfl
  | fault hgood => cases hf.symm.trans hgood
  | arith hgood => cases hf.symm.trans hgood
  | wide hgood => cases hf.symm.trans hgood
  | set hgood => cases hf.symm.trans hgood
  | read hgood => cases hf.symm.trans hgood

theorem exec_of_faulted (i : Instr) {s : State} (hf : s.fault.f = true) : exec i s = .next (s.afterAnswer 0) := by
  obtain ⟨t, ht, hend⟩ := exec_execEnd i s
  rw [ht, hend.eq_afterAnswer_of_faulted hf]

theorem step_of_faulted {s : State} {cw : CmdWord} {xi yi : BitVec s.busWidth} {rest : List (HostEvent s.busWidth)}
    (hin : s.inputs = .command cw xi yi :: rest) (hf : s.fault.f = true) :
    step s = .next ((s.taking rest xi yi).afterAnswer 0) := by
  cases hd : decode cw with
  | ok i => rw [step_of_legal s xi yi rest hin hd]; exact exec_of_faulted i hf
  | error e => rw [step_of_illegal s xi yi rest hin hd]; exact command_of_faulted _ _ hf

/-- The response to every command presented in the faulted state `s` (60_exceptions.md R157): zero data, and `FLAGS` and
`FAULT` as they are. -/
def State.faultedResponse (s : State) : Response s.busWidth := ⟨0, 0, s.flags.v, s.flags.d, s.fault.f, s.fault.cause⟩

/-- The state after commands presented in the faulted state: the ports hold the last immediates, everything presented
is taken, and `k` faulted responses are added. -/
def State.afterIgnoring (s : State) (k : Nat) (xi yi : BitVec s.busWidth) : State :=
  { s with
    xi := xi
    yi := yi
    inputs := []
    responses := s.responses ++ List.replicate k s.faultedResponse }

theorem afterIgnoring_zero {s : State} (hin : s.inputs = []) : s.afterIgnoring 0 s.xi s.yi = s := by
  simp [State.afterIgnoring, ← hin]

/-- One more command ignored first is one more faulted response. -/
theorem afterIgnoring_afterAnswer (s : State) (rest : List (HostEvent s.busWidth)) (xi yi xi' yi' : BitVec s.busWidth)
    (k : Nat) : ((s.taking rest xi yi).afterAnswer 0).afterIgnoring k xi' yi' = s.afterIgnoring (k + 1) xi' yi' := by
  have hresponses : s.responses ++ [s.faultedResponse] ++ List.replicate k s.faultedResponse =
      s.responses ++ List.replicate (k + 1) s.faultedResponse := by
    rw [List.append_assoc, List.singleton_append, ← List.replicate_succ]
  rw [State.afterIgnoring.eq_def s, ← hresponses]
  rfl

/-- A faulted block ignores all the commands presented to it, one step for each (60_exceptions.md R157, R160). -/
theorem run_of_faulted {s : State} {k : Nat} (hf : s.fault.f = true)
    (hcmd : s.inputs.all HostEvent.isCommand = true) (hk : s.inputs.length = k) :
    ∃ xi yi : BitVec s.busWidth, Sys2Proof.core.run k s = (.next (s.afterIgnoring k xi yi) : Result) := by
  induction k generalizing s with
  | zero => exact ⟨s.xi, s.yi, by rw [afterIgnoring_zero (List.length_eq_zero_iff.mp hk)]; rfl⟩
  | succ k ih =>
    rcases hin : s.inputs with _ | ⟨_ | ⟨cw, xi, yi⟩, rest⟩
    case nil => simp [hin] at hk
    case cons.reset => simp [hin, HostEvent.isCommand] at hcmd
    case cons.command =>
      have hrest : rest.all HostEvent.isCommand = true := by simpa [hin, HostEvent.isCommand] using hcmd
      have hlen : rest.length = k := by simpa [hin] using hk
      obtain ⟨xi', yi', hrun⟩ := ih (s := (s.taking rest xi yi).afterAnswer 0) hf hrest hlen
      exact ⟨xi', yi', (run_succ_of_next k (step_of_faulted hin hf)).trans
        (hrun.trans (congrArg Host.Outcome.next (afterIgnoring_afterAnswer s rest xi yi xi' yi' k)))⟩

/-! ## The settled statements -/

/-- Settles O35: the codes of the causes, then each command with the checks of its own shape in order. -/
theorem commandsFaultByPriority : Obligations.CommandsFaultByPriority :=
  ⟨⟨rfl, rfl, rfl, rfl⟩, fun i _ => exec_faultsAs_causeOf i⟩

/-- Settles O36: the command ends in fault entry or leaves `FAULT` alone, and `F` was 0 before. -/
theorem faultEntryIsPrecise : Obligations.FaultEntryIsPrecise := by
  intro s t cw xi yi rest hin hf h hft
  obtain ⟨u, hu, hend⟩ := step_of_command s cw xi yi rest hin
  cases h.symm.trans hu
  refine hend.fault_or_fault_eq.resolve_right fun hkept => ?_
  rw [hkept, taking_fault, hf] at hft
  cases hft

/-- Settles O37: the meaning of a legal word and the treatment of an illegal one both look at `FAULT.F` first. -/
theorem faultedStateIgnoresCommands : Obligations.FaultedStateIgnoresCommands :=
  fun _ _ _ _ _ => step_of_faulted

/-- Settles O39, by induction on the number of commands: each is ignored and answered with the same response. -/
theorem faultIsStickyUntilReset : Obligations.FaultIsStickyUntilReset := by
  intro s hf hcmd
  obtain ⟨xi, yi, hrun⟩ := run_of_faulted hf hcmd rfl
  refine ⟨xi, yi, _, hrun, List.length_replicate, fun r hr => ?_⟩
  rw [List.eq_of_mem_replicate hr, State.faultedResponse, hf]

end Sys2Proof.Machine
end

section
/-! The reset and run statements (70_reset_and_hazards.md): the reset state, the reset event, and a run from reset over
any events. `Advanced` says once what a number of steps does to the events presented and to the responses; one step
advances by one event, and a run is the composition of such steps. -/

namespace Sys2Proof.Machine

/-! ## Progress of a run (70_reset_and_hazards.md R182) -/

/-- The responses a run owes in all: those returned already, and one for each command still presented
(30_encoding.md R51). -/
def State.answersDue (s : State) : Nat := s.responses.length + s.inputs.countP HostEvent.isCommand

/-- When every event has been taken, every response due has been returned. -/
theorem answersDue_of_nothing {s : State} (h : s.inputs = []) : s.answersDue = s.responses.length := by
  simp [State.answersDue, h]

/-- At the start of a run one response is due for each command presented. -/
theorem answersDue_runStart (c : Width) (es : List (HostEvent (container c.bits))) :
    (runStart c es).answersDue = es.countP HostEvent.isCommand :=
  Nat.zero_add _

/-- `t` is reached from `s` by taking `k` of the events presented, in the same instance, with a response returned for
each command taken and the invariant of 10_state.md R33 kept. -/
structure Advanced (k : Nat) (s t : State) : Prop where
  width_eq : t.width = s.width
  inputs_length : t.inputs.length + k = s.inputs.length
  answersDue_eq : t.answersDue = s.answersDue
  inv : s.Inv → t.Inv

theorem Advanced.refl (s : State) : Advanced 0 s s := ⟨rfl, rfl, rfl, id⟩

theorem Advanced.trans {j k : Nat} {s t u : State} (hst : Advanced j s t) (htu : Advanced k t u) :
    Advanced (k + j) s u where
  width_eq := htu.width_eq.trans hst.width_eq
  inputs_length := by rw [← Nat.add_assoc, htu.inputs_length, hst.inputs_length]
  answersDue_eq := htu.answersDue_eq.trans hst.answersDue_eq
  inv := htu.inv ∘ hst.inv

/-- A reset takes one event and is not answered (log 4). -/
theorem reset_advanced {s : State} {rest : List (HostEvent s.busWidth)} (h : s.inputs = .reset :: rest) :
    Advanced 1 s { s with inputs := rest }.resetBlock where
  width_eq := rfl
  inputs_length := by simp [h]
  answersDue_eq := by simp [State.answersDue, h, HostEvent.isCommand]
  inv := fun _ => inv_of_cleared rfl rfl

/-- An answer takes no event. -/
theorem AnsweredOnce.inputs_length_eq {s t : State} (h : AnsweredOnce s t) : t.inputs.length = s.inputs.length := by
  obtain ⟨regs, flags, fault, r, h', rfl, -⟩ := h
  rfl

/-- An answer is one response. -/
theorem AnsweredOnce.answersDue_eq {s t : State} (h : AnsweredOnce s t) : t.answersDue = s.answersDue + 1 := by
  obtain ⟨regs, flags, fault, r, h', rfl, -⟩ := h
  simp only [State.answersDue, List.length_append, List.length_singleton]
  omega

/-- A command taken and not answered yet is due no longer. -/
theorem answersDue_taking {s : State} {cw : CmdWord} {xi yi : BitVec s.busWidth} {rest : List (HostEvent s.busWidth)}
    (h : s.inputs = .command cw xi yi :: rest) : (s.taking rest xi yi).answersDue + 1 = s.answersDue := by
  rw [State.answersDue.eq_def s, h, List.countP_cons_of_pos rfl]
  rfl

/-- While the host presents something, a step answers a next state that has taken one event. -/
theorem step_advanced {s : State} (h : s.inputs ≠ []) : ∃ t, step s = .next t ∧ Advanced 1 s t := by
  rcases hin : s.inputs with _ | ⟨_ | ⟨cw, xi, yi⟩, rest⟩
  case nil => exact absurd hin h
  case cons.reset => exact ⟨_, step_of_reset s rest hin, reset_advanced hin⟩
  case cons.command =>
    obtain ⟨t, ht, hanswered⟩ := step_answeredOnce s cw xi yi rest hin
    have hlength : t.inputs.length + 1 = s.inputs.length := by rw [hanswered.inputs_length_eq, hin]; rfl
    exact ⟨t, ht, noStepChangesTheWidth s t ht, hlength, hanswered.answersDue_eq.trans (answersDue_taking hin),
      fun hs => everyStepKeepsFlagAndFaultInvariant s t hs ht⟩

/-- A run of `k` steps, with at least `k` events presented, takes `k` events: no fault on the way stops it
(60_exceptions.md R156, R157). -/
theorem run_advanced {k : Nat} {s : State} (hk : k ≤ s.inputs.length) :
    ∃ t, Sys2Proof.core.run k s = (.next t : Result) ∧ Advanced k s t := by
  induction k generalizing s with
  | zero => exact ⟨s, rfl, .refl s⟩
  | succ k ih =>
    obtain ⟨t, hstep, hst⟩ := step_advanced (List.ne_nil_of_length_pos (Nat.zero_lt_of_lt hk))
    have hkt : k ≤ t.inputs.length := Nat.le_of_succ_le_succ (hk.trans_eq hst.inputs_length.symm)
    obtain ⟨u, hrun, htu⟩ := ih hkt
    exact ⟨u, (run_succ_of_next k hstep).trans hrun, hst.trans htu⟩

/-! ## The settled statements -/

/-- Settles O23: the reset state is written out register by register. -/
theorem resetStateIsAllZero : Obligations.ResetStateIsAllZero :=
  fun _ => ⟨fun i => Vector.getElem_replicate i.isLt, rfl, rfl⟩

/-- Settles O24: the step of a reset event, which does not look at `FAULT.F`. -/
theorem resetEventZeroesTheBlock : Obligations.ResetEventZeroesTheBlock := step_of_reset

/-- Settles O43: a run of as many steps as there are events takes them all and returns all the responses due; what
follows is the step with nothing presented. -/
theorem runAnswersEveryCommand : Obligations.RunAnswersEveryCommand := by
  intro c es
  obtain ⟨t, hrun, hadv⟩ := run_advanced (s := runStart c es) (k := es.length) le_rfl
  have hin : t.inputs = [] := List.length_eq_zero_iff.mp (Nat.add_eq_right.mp hadv.inputs_length)
  have hanswers : t.responses.length = es.countP HostEvent.isCommand := by
    rw [← answersDue_of_nothing hin, hadv.answersDue_eq, answersDue_runStart]
  obtain ⟨hidle, hfaulted⟩ := nothingPresentedIsIdleOrFaulted t hin
  exact ⟨t, hrun, hadv.width_eq, List.length_eq_zero_iff.mpr hin, hanswers, hadv.inv (inv_of_cleared rfl rfl), hidle,
    fun hbad => hfaulted (Bool.eq_true_of_not_eq_false hbad)⟩

end Sys2Proof.Machine
end
